-- ==== Sys2Proof/Word.lean ====
section
/-! DEFINITION. The plain data HUFFCORE works on: bits, bytes, and the fixed-width unsigned fields of
spec/00_scope.md R11 and R12. There is no signed quantity anywhere in the block (R14). -/

namespace Sys2Proof

/-- One bit of a code or of the payload (00_scope.md R12): `false` is `0`, `true` is `1`. -/
abbrev Bit := Bool

/-- Eight bits, numbered 7 down to 0 (00_scope.md R12). -/
abbrev Byte := BitVec 8

/-- One raw byte value, 0 to 255 (00_scope.md R10). -/
abbrev Symbol := BitVec 8

/-- A frequency-table count, `W_FREQ` = 64 bits (00_scope.md R11). -/
abbrev Count := BitVec 64

/-- A queue priority or node frequency, `W_PRIO` = 72 bits (00_scope.md R11). -/
abbrev Prio := BitVec 72

/-- A tie-break key, `W_TIE` = 8 bits (00_scope.md R11). -/
abbrev Tie := BitVec 8

/-- A queue payload, `W_VAL` = 16 bits (00_scope.md R11). -/
abbrev Val := BitVec 16

/-- A node index, `W_NODE` = 9 bits (00_scope.md R11). -/
abbrev NodeIdx := BitVec 9

/-- The set of symbols beneath a node: bit `s` is set when symbol `s` is in it (10_state.md R28). -/
abbrev SymSet := BitVec 256

/-- A command descriptor, 128 bits, bit 127 most significant (00_scope.md R13). -/
abbrev Descriptor := BitVec 128

/-- A response word, 128 bits, bit 127 most significant (00_scope.md R13). -/
abbrev Response := BitVec 128

/-- The code of a symbol, first transmitted bit first (10_state.md R33). -/
abbrev Code := List Bit

/-- A table indexed by symbol whose entries are absent (`none`) or hold a value: the form of `FT` (10_state.md R23)
and of `CT` (R33). -/
abbrev Table (α : Type) := Vector (Option α) 256

end Sys2Proof
end

