-- ==== Sys2Proof/Syntax.lean ====
section
/-! DEFINITION. The ten commands of spec/30_encoding.md R74 as one inductive, one constructor per row of
spec/opcode_table.json, and the raw fields of the one descriptor format `D` (R71). -/

namespace Sys2Proof

/-- The commands (30_encoding.md R74). Every operand is an unsigned field taken as it stands (R73). -/
inductive Instr
  /-- `PQ_CLEAR`, `OPC` 0x01. -/
  | pqClear
  /-- `PQ_PUSH prio, tie, val`, `OPC` 0x02. -/
  | pqPush (prio : Prio) (tie : Tie) (val : Val)
  /-- `PQ_POP`, `OPC` 0x03. -/
  | pqPop
  /-- `PQ_SIZE`, `OPC` 0x04. -/
  | pqSize
  /-- `FT_CLEAR`, `OPC` 0x10. -/
  | ftClear
  /-- `FT_WRITE sym, count`, `OPC` 0x11. -/
  | ftWrite (sym : Symbol) (count : Count)
  /-- `BUILD_TREE`, `OPC` 0x20. -/
  | buildTree
  /-- `BUILD_CODES`, `OPC` 0x21. -/
  | buildCodes
  /-- `ENCODE`, `OPC` 0x30. -/
  | encode
  /-- `DECODE`, `OPC` 0x31. -/
  | decode
  deriving DecidableEq, Repr

/-- The five fields of format `D` (30_encoding.md R71). -/
structure Format where
  /-- `OPC`, bits [127:120]. -/
  opc : BitVec 8
  /-- `TIE`, bits [119:112]. -/
  tie : BitVec 8
  /-- `VAL`, bits [111:96]. -/
  val : BitVec 16
  /-- `RSV`, bits [95:72]. -/
  rsv : BitVec 24
  /-- `PRIO`, bits [71:0]. -/
  prio : BitVec 72
  deriving DecidableEq, Repr

end Sys2Proof
end

