-- ==== Sys2Proof/WellFormed.lean ====
section
/-! DEFINITION. Which fields make a legal descriptor, said declaratively from spec/30_encoding.md R71 and R76: one named
check per way a descriptor can be illegal. (Every term of `Instr` is well-formed: its operands have the field widths as
their types. What can be ill-formed is a descriptor, so the checks are on its fields.) Sys2Proof/Decode.lean decodes by
its own procedure, and obligations say that the two agree. -/

namespace Sys2Proof

/-- `OPC` is one of the ten codes of 30_encoding.md R74. -/
def Format.opcKnown (f : Format) : Bool :=
  [0x01#8, 0x02#8, 0x03#8, 0x04#8, 0x10#8, 0x11#8, 0x20#8, 0x21#8, 0x30#8, 0x31#8].contains f.opc

/-- `RSV` must be 0 in every command (30_encoding.md R71). -/
def Format.rsvZero (f : Format) : Bool := f.rsv == 0

/-- `TIE` must be 0 but for PQ_PUSH and FT_WRITE (30_encoding.md R71). -/
def Format.tieUsed (f : Format) : Bool := f.opc == 0x02#8 || f.opc == 0x11#8 || f.tie == 0

/-- `VAL` must be 0 but for PQ_PUSH (30_encoding.md R71). -/
def Format.valUsed (f : Format) : Bool := f.opc == 0x02#8 || f.val == 0

/-- `PRIO` must be 0 but for PQ_PUSH and FT_WRITE (30_encoding.md R71). -/
def Format.prioUsed (f : Format) : Bool := f.opc == 0x02#8 || f.opc == 0x11#8 || f.prio == 0

/-- FT_WRITE's count stands in `PRIO[63:0]`, with `PRIO[71:64]` = 0 (30_encoding.md R71). -/
def Format.countFits (f : Format) : Bool := f.opc != 0x11#8 || f.prio.extractLsb' 64 8 == 0

/-- The legal descriptors (30_encoding.md R76). -/
def Format.wellFormed (f : Format) : Bool :=
  f.opcKnown && f.rsvZero && f.tieUsed && f.valUsed && f.prioUsed && f.countFits

end Sys2Proof
end

