-- ==== Sys2Proof/Decode.lean ====
section
/-! DEFINITION. Decoding a 128-bit descriptor to a command and encoding a command as its descriptor
(spec/30_encoding.md R70 to R78), both written from the field table R71 and the opcode map R74. The decoder is total:
every word is one command or illegal under a name (R76, R77). -/

namespace Sys2Proof

/-- Why a descriptor is illegal (30_encoding.md R76). The machine answers every one of them with `ILLEGAL_COMMAND`. -/
inductive Illegal
  /-- `OPC` is in no row of R74. -/
  | unknownOpc
  /-- `RSV` is not zero. -/
  | reservedNonZero
  /-- A field that the command's row says must be 0 is not. -/
  | operandNonZero
  /-- FT_WRITE with `PRIO[71:64]` not zero. -/
  | countTooWide
  /-- A byte sequence that is not the 16 bytes of one descriptor (20_memory.md R58). -/
  | notSixteenBytes
  deriving DecidableEq, Repr

/-- The fields of a descriptor (30_encoding.md R71). -/
def Format.ofWord (d : Descriptor) : Format where
  opc := d.extractLsb' 120 8
  tie := d.extractLsb' 112 8
  val := d.extractLsb' 96 16
  rsv := d.extractLsb' 72 24
  prio := d.extractLsb' 0 72

/-- The descriptor with the given fields (30_encoding.md R71). -/
def Format.toWord (f : Format) : Descriptor :=
  f.opc ++ f.tie ++ f.val ++ f.rsv ++ f.prio

/-- A row without operands: every field but `OPC` must be 0 (30_encoding.md R71). -/
def decodeBare (f : Format) (i : Instr) : Except Illegal Instr :=
  if f.rsv ≠ 0 then .error .reservedNonZero
  else if f.tie ≠ 0 ∨ f.val ≠ 0 ∨ f.prio ≠ 0 then .error .operandNonZero
  else .ok i

/-- PQ_PUSH: all three operand fields are used (30_encoding.md R71). -/
def decodePush (f : Format) : Except Illegal Instr :=
  if f.rsv ≠ 0 then .error .reservedNonZero
  else .ok (.pqPush f.prio f.tie f.val)

/-- FT_WRITE: the symbol is `TIE`, the count `PRIO[63:0]` (30_encoding.md R71, R73). -/
def decodeWrite (f : Format) : Except Illegal Instr :=
  if f.rsv ≠ 0 then .error .reservedNonZero
  else if f.val ≠ 0 then .error .operandNonZero
  else if f.prio.extractLsb' 64 8 ≠ 0 then .error .countTooWide
  else .ok (.ftWrite f.tie (f.prio.extractLsb' 0 64))

/-- The decode procedure on the fields (30_encoding.md R78), by the opcode map of R74. -/
def decodeFormat (f : Format) : Except Illegal Instr :=
  if f.opc = 0x01#8 then decodeBare f .pqClear
  else if f.opc = 0x02#8 then decodePush f
  else if f.opc = 0x03#8 then decodeBare f .pqPop
  else if f.opc = 0x04#8 then decodeBare f .pqSize
  else if f.opc = 0x10#8 then decodeBare f .ftClear
  else if f.opc = 0x11#8 then decodeWrite f
  else if f.opc = 0x20#8 then decodeBare f .buildTree
  else if f.opc = 0x21#8 then decodeBare f .buildCodes
  else if f.opc = 0x30#8 then decodeBare f .encode
  else if f.opc = 0x31#8 then decodeBare f .decode
  else .error .unknownOpc

/-- The decode procedure (30_encoding.md R78). -/
def decode (d : Descriptor) : Except Illegal Instr := decodeFormat (Format.ofWord d)

/-- The descriptor written as bytes, byte 0 being bits [127:120] (20_memory.md R58; notation, not hardware). -/
def descriptorOfBytes (bs : List Byte) : Option Descriptor :=
  if bs.length = 16 then some (bs.foldl (fun d b => (d <<< 8) ||| b.setWidth 128) 0) else none

/-- Decoding of any byte sequence: 16 bytes are one descriptor, anything else is rejected by name. -/
def decodeBytes (bs : List Byte) : Except Illegal Instr :=
  match descriptorOfBytes bs with
  | some d => decode d
  | none => .error .notSixteenBytes

/-- The descriptor of a table word: the low `nbits` bits of `w`, numbered as the opcode table numbers them, with the bits
above 0. A descriptor is ONE word of 128 bits (30_encoding.md R70; assumption log 13). -/
def descriptorOfTable (nbits w : Nat) : Descriptor := BitVec.ofNat 128 (w % 2 ^ nbits)

/-- The host's name for decoding a table word. -/
def decodeTableWord (nbits w : Nat) : Option Instr :=
  match decode (descriptorOfTable nbits w) with
  | .ok i => some i
  | .error _ => none

/-! The encoder and the opcode map. -/

/-- The operation code of a command (30_encoding.md R74). -/
def Instr.opc : Instr → BitVec 8
  | .pqClear => 0x01
  | .pqPush _ _ _ => 0x02
  | .pqPop => 0x03
  | .pqSize => 0x04
  | .ftClear => 0x10
  | .ftWrite _ _ => 0x11
  | .buildTree => 0x20
  | .buildCodes => 0x21
  | .encode => 0x30
  | .decode => 0x31

/-- The fields of a command's descriptor: a narrower operand is zero-extended, an unused field is 0
(30_encoding.md R71, R73). -/
def Instr.format (i : Instr) : Format :=
  match i with
  | .pqPush prio tie val => ⟨i.opc, tie, val, 0, prio⟩
  | .ftWrite sym count => ⟨i.opc, sym, 0, 0, count.setWidth 72⟩
  | .pqClear | .pqPop | .pqSize | .ftClear | .buildTree | .buildCodes | .encode | .decode => ⟨i.opc, 0, 0, 0, 0⟩

/-- The descriptor of a command (30_encoding.md R71, R74). -/
def encode (i : Instr) : Descriptor := i.format.toWord

/-- One row of the opcode map (30_encoding.md R74): a descriptor `d` selects it when `d AND mask = pattern`. -/
structure OpcodeRow where
  /-- The mnemonic. -/
  mnemonic : String
  /-- The table's `match` column. -/
  pattern : Descriptor
  /-- The table's `mask` column. -/
  mask : Descriptor
  deriving DecidableEq, Repr

/-- A descriptor selects a row (30_encoding.md R74). -/
def OpcodeRow.selects (r : OpcodeRow) (d : Descriptor) : Bool := d &&& r.mask == r.pattern

/-- The row of each command in 30_encoding.md R74, its mask and match as printed there. -/
def Instr.row : Instr → OpcodeRow
  | .pqClear => ⟨"PQ_CLEAR", 0x01000000000000000000000000000000, 0xFFFFFFFFFFFFFFFFFFFFFFFFFFFFFFFF⟩
  | .pqPush _ _ _ => ⟨"PQ_PUSH", 0x02000000000000000000000000000000, 0xFF000000FFFFFF000000000000000000⟩
  | .pqPop => ⟨"PQ_POP", 0x03000000000000000000000000000000, 0xFFFFFFFFFFFFFFFFFFFFFFFFFFFFFFFF⟩
  | .pqSize => ⟨"PQ_SIZE", 0x04000000000000000000000000000000, 0xFFFFFFFFFFFFFFFFFFFFFFFFFFFFFFFF⟩
  | .ftClear => ⟨"FT_CLEAR", 0x10000000000000000000000000000000, 0xFFFFFFFFFFFFFFFFFFFFFFFFFFFFFFFF⟩
  | .ftWrite _ _ => ⟨"FT_WRITE", 0x11000000000000000000000000000000, 0xFF00FFFFFFFFFFFF0000000000000000⟩
  | .buildTree => ⟨"BUILD_TREE", 0x20000000000000000000000000000000, 0xFFFFFFFFFFFFFFFFFFFFFFFFFFFFFFFF⟩
  | .buildCodes => ⟨"BUILD_CODES", 0x21000000000000000000000000000000, 0xFFFFFFFFFFFFFFFFFFFFFFFFFFFFFFFF⟩
  | .encode => ⟨"ENCODE", 0x30000000000000000000000000000000, 0xFFFFFFFFFFFFFFFFFFFFFFFFFFFFFFFF⟩
  | .decode => ⟨"DECODE", 0x31000000000000000000000000000000, 0xFFFFFFFFFFFFFFFFFFFFFFFFFFFFFFFF⟩

/-- The opcode map, its ten rows in the order of 30_encoding.md R74. -/
def opcodeTable : List OpcodeRow :=
  [Instr.pqClear, .pqPush 0 0 0, .pqPop, .pqSize, .ftClear, .ftWrite 0 0, .buildTree, .buildCodes, .encode,
    .decode].map Instr.row

end Sys2Proof
end

