-- ==== Sys2Proof/Config.lean ====
section
/-! DEFINITION. The configuration: the named parameters of spec/00_scope.md R11 with the values the spec decides, and
the two free choices the spec leaves open (10_state.md R43). Widths are the types of Sys2Proof/Word.lean. -/

namespace Sys2Proof

/-- The two values of the parameter `CHILD_ORDER` (41_tree_build.md R117). -/
inductive ChildOrder
  /-- The left child is the second popped entry, the larger key. -/
  | secondLeft
  /-- The left child is the first popped entry, the smaller key. -/
  | firstLeft
  deriving DecidableEq, Repr

/-- `CHILD_ORDER`, decided `SECOND_LEFT` (00_scope.md R11, 41_tree_build.md R117). -/
def Config.childOrder : ChildOrder := .secondLeft

/-- `PQ_CAP`, the capacity of the priority queue, decided 256 (00_scope.md R11). -/
def Config.pqCap : Nat := 256

/-- `NODE_CAP`, the number of arena entries, 2 * 256 - 1 (00_scope.md R11). -/
def Config.nodeCap : Nat := 511

/-- `MAX_CODE_LEN`, the longest code in bits (00_scope.md R11). -/
def Config.maxCodeLen : Nat := 255

/-- `PQ_EQUAL_KEY_ORDER`, which the spec leaves OPEN (40_priority_queue.md R97): the free value that picks, at the draw
with the given number, one of several entries of minimal key. It has no body: a claim holds for every choice
(assumption log 5). -/
opaque Config.equalKeyDraw : Nat → Nat

/-- The free value behind the prefix of its emission that a faulting command delivers to `OUT` (20_memory.md R54), at the
draw with the given number. It has no body: a claim holds for every length (assumption log 6). -/
opaque Config.prefixDraw : Nat → Nat

end Sys2Proof
end

