-- ==== Sys2Proof/Machine/State.lean ====
section
/-! DEFINITION. The state of one HUFFCORE instance (spec/10_state.md R20) as plain data, the host's pending moves
(20_memory.md R55), the reasons a step can stop, and the state after reset (10_state.md R42). -/

namespace Sys2Proof.Machine

/-- One entry of the priority queue (10_state.md R26). -/
structure Entry where
  /-- The priority. -/
  prio : Prio
  /-- The tie-break key. -/
  tie : Tie
  /-- The payload. -/
  val : Val
  deriving DecidableEq, Repr

/-- One arena entry (10_state.md R28); the constructor is the field `KIND`. -/
inductive Node
  /-- `KIND` = 0: `SYM`, `FREQ`, `SYMS`. -/
  | leaf (sym : Symbol) (freq : Prio) (syms : SymSet)
  /-- `KIND` = 1: `LEFT`, `RIGHT`, `FREQ`, `SYMS`. -/
  | internal (left right : NodeIdx) (freq : Prio) (syms : SymSet)
  deriving DecidableEq, Repr

/-- One move of the host, made between commands (20_memory.md R52, R53; 10_state.md R38; 70_reset_and_hazards.md R210). -/
inductive HostMove
  /-- A write of a descriptor to the command port `CMD`. -/
  | command (d : Descriptor)
  /-- `in_append(bytes)`. -/
  | inAppend (bytes : List Byte)
  /-- `out_drain(k)`. -/
  | outDrain (k : Nat)
  /-- The reset input is asserted. -/
  | reset
  deriving DecidableEq, Repr

/-- The errors a command's pseudocode raises (60_exceptions.md R181). Each ends its command with a non-zero `STATUS`; the
machine goes on, so each is a NEXT state, never a stop of the model. -/
inductive Raise
  /-- `EMPTY_INPUT` (R182). -/
  | emptyInput
  /-- `UNMAPPED_SYMBOL` (R183), with the symbol. -/
  | unmappedSymbol (sym : Symbol)
  /-- `INVALID_HEADER_TOKEN` (R184). -/
  | invalidHeaderToken
  /-- `MALFORMED_PADDING` (R185), with the padding byte. -/
  | malformedPadding (pad : Byte)
  /-- `TRUNCATED_STREAM` (R186). -/
  | truncatedStream
  /-- `EMPTY_QUEUE` (R187). -/
  | emptyQueue
  /-- `ILLEGAL_COMMAND` (R188). -/
  | illegalCommand
  /-- `QUEUE_FULL` (R189). -/
  | queueFull
  deriving DecidableEq, Repr

/-- Why a step stops with a fault of the MODEL. None is a fault of the block (those are `Raise`): each is a read of a
place that holds no value, which no rule reads (10_state.md R27, R211), in a state that no run reaches. -/
inductive Fault
  /-- An arena entry that is not in use was read: BUILD_TREE, BUILD_CODES and DECODE raise it. Safe: it stops only where
  the arena is not what the builder leaves. -/
  | nodeNoValue
  /-- `ROOT` was read while it holds no value: BUILD_CODES raises it. Safe: it stops only where `TREE_VALID` and `ROOT`
  disagree. -/
  | rootNoValue
  /-- The code walk went deeper than the arena has entries: BUILD_CODES raises it. Safe: it stops only where the arena
  has a cycle, against 10_state.md R30 (b). -/
  | arenaCyclic
  deriving DecidableEq, Repr

/-- Why a step is refused. -/
inductive Refusal
  /-- `exec` raises it for a command that has no meaning yet. Safe. -/
  | notModelled (mnemonic : String)
  /-- The host's `out_drain(k)` with `k` greater than `|OUT|` raises it: no such move exists (20_memory.md R53). Safe. -/
  | drainBeyondOut
  deriving DecidableEq, Repr

/-- The complete state of one instance (10_state.md R20), then the model's own fields: the host's side of the
interface and the count of free draws. -/
structure State where
  /-- `FT`, the frequency table (10_state.md R23). -/
  ft : Table Count
  /-- `PQ`, the priority queue (10_state.md R25): its entries with multiplicity, in ascending order. -/
  pq : List Entry
  /-- `NODE`, the arena entries in use, in index order (10_state.md R27). -/
  node : List Node
  /-- `NODE_COUNT` (10_state.md R29). -/
  nodeCount : Nat
  /-- `ROOT`, absent while it holds no value (10_state.md R29, R211). -/
  root : Option NodeIdx
  /-- `TREE_VALID` (10_state.md R29). -/
  treeValid : Bool
  /-- `CT`, the code table (10_state.md R33). -/
  ct : Table Code
  /-- `IN`, the input stream, head first (10_state.md R35). -/
  inp : List Byte
  /-- `OUT`, the output stream, head first (10_state.md R36). -/
  out : List Byte
  /-- `RSP`, the response register (10_state.md R37). -/
  rsp : Response
  /-- MODEL: how many free choices have been drawn (10_state.md R43; assumption log 4). -/
  draws : Nat
  /-- MODEL: the host's moves still to come, in their total order (20_memory.md R55; assumption log 1). -/
  moves : List HostMove
  /-- MODEL: the bytes the host has received by `out_drain`, in order (20_memory.md R53; assumption log 2). -/
  received : List Byte
  /-- MODEL: the record of every non-zero `STATUS`, in order (60_exceptions.md R194; assumption log 3). -/
  faultLog : List Byte
  deriving DecidableEq, Repr

/-- The state after reset (10_state.md R42), with the model's own fields at their start. -/
def State.reset : State where
  ft := Vector.replicate 256 none
  pq := []
  node := []
  nodeCount := 0
  root := none
  treeValid := false
  ct := Vector.replicate 256 none
  inp := []
  out := []
  rsp := 0
  draws := 0
  moves := []
  received := []
  faultLog := []

end Sys2Proof.Machine
end

