-- ==== Sys2Proof/Machine/Operands.lean ====
section
/-! DEFINITION. Operand and result assembly: zero extension of narrow values into wider fields (spec/30_encoding.md R73),
the response word (R72) and the status codes (60_exceptions.md R181). The operand fields of a descriptor themselves are
extracted once, in Sys2Proof/Decode.lean. -/

namespace Sys2Proof.Machine

/-- `zext_72` of a table count (30_encoding.md R73). -/
def prioOfCount (c : Count) : Prio := c.setWidth 72

/-- `zext_16` of an arena index (30_encoding.md R73, 41_tree_build.md R113). -/
def valOfIndex (i : Nat) : Val := BitVec.ofNat 16 i

/-- `v[8:0]`, the node index a queue payload holds (41_tree_build.md R113). -/
def indexOfVal (v : Val) : NodeIdx := v.extractLsb' 0 9

/-- The response word with the given fields (30_encoding.md R72): bits [95:72] are always 0. -/
def responseWord (status : Byte) (tie : Tie) (val : Val) (prio : Prio) : Response :=
  status ++ tie ++ val ++ (0 : BitVec 24) ++ prio

/-- `STATUS`, bits [127:120] of a response (30_encoding.md R72). -/
def rspStatus (w : Response) : Byte := w.extractLsb' 120 8

/-- `TIE`, bits [119:112] of a response (30_encoding.md R72). -/
def rspTie (w : Response) : Tie := w.extractLsb' 112 8

/-- `VAL`, bits [111:96] of a response (30_encoding.md R72). -/
def rspVal (w : Response) : Val := w.extractLsb' 96 16

/-- Bits [95:72] of a response, always 0 (30_encoding.md R72). -/
def rspZero (w : Response) : BitVec 24 := w.extractLsb' 72 24

/-- `PRIO`, bits [71:0] of a response (30_encoding.md R72). -/
def rspPrio (w : Response) : Prio := w.extractLsb' 0 72

/-- The status `OK` (60_exceptions.md R181). -/
def statusOk : Byte := 0x00

/-- The status code of each error (60_exceptions.md R181). -/
def statusCode : Raise → Byte
  | .emptyInput => 0x01
  | .unmappedSymbol _ => 0x02
  | .invalidHeaderToken => 0x03
  | .malformedPadding _ => 0x04
  | .truncatedStream => 0x05
  | .emptyQueue => 0x06
  | .illegalCommand => 0x80
  | .queueFull => 0x81

/-- What each error records in `RSP.TIE` (60_exceptions.md R181). -/
def raiseInfo : Raise → Byte
  | .unmappedSymbol sym => sym
  | .malformedPadding pad => pad
  | .emptyInput | .invalidHeaderToken | .truncatedStream | .emptyQueue | .illegalCommand | .queueFull => 0

end Sys2Proof.Machine
end

