-- ==== Sys2Proof/Machine/Ops.lean ====
section
/-! DEFINITION. The named operations over the state that the commands share: tables (spec/20_memory.md R50), streams
(R54, R56), the clearing rules (70_reset_and_hazards.md R219), writing the response (10_state.md R37) and taking a fault
(60_exceptions.md R190, R194). There is no return from a fault (R198): the next command is accepted at once. -/

namespace Sys2Proof.Machine

/-- How an internal operation stops its command: with an error of the block, or with a stop of the model. -/
inductive Stop
  /-- `raise` (00_scope.md R14). -/
  | raise (r : Raise)
  /-- A place without a value was read; no reachable state does it. -/
  | fault (f : Fault)
  deriving DecidableEq, Repr

/-! ## Tables -/

/-- The table with every entry absent. -/
def tableEmpty (α : Type) : Table α := Vector.replicate 256 none

/-- `FT[s]`, `CT[s]` (00_scope.md R14). -/
def tableGet {α : Type} (t : Table α) (s : Symbol) : Option α := t[s.toNat]'s.isLt

/-- `FT[s] <- v`, `CT[s] <- v` (00_scope.md R14). -/
def tableSet {α : Type} (t : Table α) (s : Symbol) (v : α) : Table α := t.set s.toNat (some v) s.isLt

/-- The present entries of a table from index `k` on, with their symbols. -/
def pairsFrom {α : Type} : Nat → List (Option α) → List (Symbol × α)
  | _, [] => []
  | k, none :: os => pairsFrom (k + 1) os
  | k, some v :: os => (BitVec.ofNat 8 k, v) :: pairsFrom (k + 1) os

/-- The present entries of a table with their symbols, in ascending symbol order (10_state.md R24). -/
def tablePairs {α : Type} (t : Table α) : List (Symbol × α) := pairsFrom 0 t.toList

/-- `symbols(FT)`: the symbols present in a table, ascending (10_state.md R23). -/
def symbols {α : Type} (t : Table α) : List Symbol := (tablePairs t).map Prod.fst

/-! ## The arena -/

/-- `FREQ` of an arena entry (10_state.md R28). -/
def nodeFreq : Node → Prio
  | .leaf _ f _ => f
  | .internal _ _ f _ => f

/-- `SYMS` of an arena entry (10_state.md R28). -/
def nodeSyms : Node → SymSet
  | .leaf _ _ y => y
  | .internal _ _ _ y => y

/-- `{s}` as a symbol set: bit `s` is set (10_state.md R28). -/
def symsOf (s : Symbol) : SymSet := BitVec.twoPow 256 s.toNat

/-- `NODE[i]`; an entry at or beyond `NODE_COUNT` has no value (10_state.md R27). -/
def nodeAt (node : List Node) (i : NodeIdx) : Option Node := node[i.toNat]?

/-! ## Writing a table or the queue whole -/

/-- Every `FT[s] <- T[s]`. -/
def withFt (t : Table Count) (s : State) : State := { s with ft := t }

/-- The code table is the given one. -/
def withCt (t : Table Code) (s : State) : State := { s with ct := t }

/-- The queue is the given one. -/
def withPq (pq : List Entry) (s : State) : State := { s with pq := pq }

/-! ## Clearing -/

/-- Every `FT[s] <- absent`. -/
def clearFt (s : State) : State := { s with ft := tableEmpty Count }

/-- `TREE_VALID <- 0; NODE_COUNT <- 0`: the arena and `ROOT` then hold no value (10_state.md R29). -/
def clearTree (s : State) : State := { s with node := [], nodeCount := 0, root := none, treeValid := false }

/-- Every `CT[s] <- absent`. -/
def clearCt (s : State) : State := { s with ct := tableEmpty Code }

/-- The state derived from `FT` is cleared (70_reset_and_hazards.md R219). -/
def clearDerived (s : State) : State := clearCt (clearTree s)

/-- `pq_clear()` (40_priority_queue.md R96). -/
def clearPq (s : State) : State := { s with pq := [] }

/-! ## Streams -/

/-- `IN` is consumed to its end (20_memory.md R56, 60_exceptions.md R193). -/
def consumeIn (s : State) : State := { s with inp := [] }

/-- A command that ends `OK`: `OUT <- OUT ++ E` (20_memory.md R54). -/
def deliver (e : List Byte) (s : State) : State := { s with out := s.out ++ e }

/-- A command that faults: `OUT` gains some prefix of its emission `E`, of a length nothing constrains (20_memory.md R54;
assumption log 6). An empty emission has one prefix, so no choice is drawn for it. -/
def deliverPrefix (e : List Byte) (s : State) : State :=
  match e with
  | [] => s
  | b :: bs =>
    { s with out := s.out ++ (b :: bs).take (Config.prefixDraw s.draws % (bs.length + 2)), draws := s.draws + 1 }

/-! ## The response, and taking a fault -/

/-- `RSP <- (OK, tie, val, prio)` (10_state.md R37). -/
def respond (tie : Tie) (val : Val) (prio : Prio) (s : State) : State :=
  { s with rsp := responseWord statusOk tie val prio }

/-- `RSP <- (OK, 0, 0, 0)`. -/
def respondOk (s : State) : State := respond 0 0 0 s

/-- Taking a fault: `RSP <- (code, info, 0, 0)` (60_exceptions.md R194), and nothing else of the block changes (R190, R197);
the model's own record gains the code (R194). -/
def raise (r : Raise) (s : State) : State :=
  { s with rsp := responseWord (statusCode r) (raiseInfo r) 0 0, faultLog := s.faultLog ++ [statusCode r] }

/-- How a stop ends a command, the state being what the command had written: an error ends it with its response, a place
without a value stops the model. -/
def stopWith (st : Stop) (s : State) : Host.Outcome State Fault Refusal :=
  match st with
  | .raise r => .next (raise r s)
  | .fault f => .fault f

end Sys2Proof.Machine
end

