-- ==== Sys2Proof/Machine/Queue.lean ====
section
/-! DEFINITION. The priority queue (spec/40_priority_queue.md): its order (R91), its operations (R92 to R97) and the
commands PQ_CLEAR, PQ_PUSH, PQ_POP and PQ_SIZE (R101 to R104). The queue is a collection with multiplicity (10_state.md
R25); the model lists it in ascending order of (priority, tie, payload), so that equal collections are equal data, and no
operation depends on the order of the list. -/

namespace Sys2Proof.Machine

/-- `key(x) < key(y)` (40_priority_queue.md R91). -/
def keyLt (x y : Entry) : Bool := x.prio < y.prio || (x.prio == y.prio && x.tie < y.tie)

/-- `key(x) = key(y)` (40_priority_queue.md R91). -/
def keyEq (x y : Entry) : Bool := x.prio == y.prio && x.tie == y.tie

/-- The order the list is kept in: by key, then by payload (the model's canonical form). -/
def entryLe (x y : Entry) : Bool := keyLt x y || (keyEq x y && x.val ≤ y.val)

/-- `pq_push` (40_priority_queue.md R92): one more occurrence of the entry. -/
def pqInsert (e : Entry) : List Entry → List Entry
  | [] => [e]
  | x :: xs => if entryLe e x then e :: x :: xs else x :: pqInsert e xs

/-- `pq_build_from` (40_priority_queue.md R95): the collection of all items, replacing what the queue held. -/
def pqBuildFrom (items : List Entry) : List Entry := items.foldr pqInsert []

/-- `pq_size` (40_priority_queue.md R94). -/
def pqSize (pq : List Entry) : Nat := pq.length

/-- An entry of `x :: xs` whose key is the least. -/
def leastKey (x : Entry) : List Entry → Entry
  | [] => x
  | y :: ys => leastKey (if keyLt y x then y else x) ys

/-- The minimal entries of the queue (40_priority_queue.md R91), with multiplicity. -/
def minimalEntries : List Entry → List Entry
  | [] => []
  | x :: xs => (x :: xs).filter (keyEq (leastKey x xs))

/-- The element of `x :: xs` at position `k` modulo their number: any of them, as `k` ranges over the numbers. -/
def chooseFrom {α : Type} (x : α) (xs : List α) (k : Nat) : α :=
  (x :: xs)[k % (xs.length + 1)]'(Nat.mod_lt _ (Nat.succ_pos _))

/-- What `pq_pop` finds: the entry, the queue without one occurrence of it, and the number of free choices drawn so far. -/
structure Popped where
  /-- The entry returned. -/
  entry : Entry
  /-- The queue afterwards. -/
  pq : List Entry
  /-- The draws made so far. -/
  draws : Nat
  deriving DecidableEq, Repr

/-- `pq_pop` (40_priority_queue.md R93): a minimal entry leaves the queue; `none` is `EmptyQueue`. Where several entries are
minimal the free value `Config.equalKeyDraw` picks one (R97; assumption log 5). -/
def pqPop (pq : List Entry) (draws : Nat) : Option Popped :=
  match minimalEntries pq with
  | [] => none
  | [m] => some ⟨m, pq.erase m, draws⟩
  | m :: m' :: ms =>
    let e := chooseFrom m (m' :: ms) (Config.equalKeyDraw draws)
    some ⟨e, pq.erase e, draws + 1⟩

/-! ## Commands -/

/-- PQ_CLEAR (40_priority_queue.md R101). -/
def execPqClear (s : State) : Host.Outcome State Fault Refusal := .next (respondOk (clearPq s))

/-- PQ_PUSH (40_priority_queue.md R102). -/
def execPqPush (prio : Prio) (tie : Tie) (val : Val) (s : State) : Host.Outcome State Fault Refusal :=
  if pqSize s.pq ≥ Config.pqCap then .next (raise .queueFull s)
  else .next (respondOk (withPq (pqInsert ⟨prio, tie, val⟩ s.pq) s))

/-- PQ_POP (40_priority_queue.md R103). -/
def execPqPop (s : State) : Host.Outcome State Fault Refusal :=
  match pqPop s.pq s.draws with
  | none => .next (raise .emptyQueue s)
  | some p => .next (respond p.entry.tie p.entry.val p.entry.prio { s with pq := p.pq, draws := p.draws })

/-- PQ_SIZE (40_priority_queue.md R104). -/
def execPqSize (s : State) : Host.Outcome State Fault Refusal :=
  .next (respond 0 (BitVec.ofNat 16 (pqSize s.pq)) 0 s)

end Sys2Proof.Machine
end

