-- ==== Sys2Proof/Machine/Tree.lean ====
section
/-! DEFINITION. Loading the frequency table and building the tree (spec/41_tree_build.md): FT_CLEAR (R111), FT_WRITE (R112),
`build_tree` (R113 to R118) and BUILD_TREE (R119). -/

namespace Sys2Proof.Machine

/-- The leaf of a symbol (41_tree_build.md R113, step 2). -/
def leafOf (p : Symbol × Count) : Node := .leaf p.1 (prioOfCount p.2) (symsOf p.1)

/-- The queue entries of the leaves, the first leaf having index `k` (41_tree_build.md R113, step 2; R115). -/
def seedItems : Nat → List (Symbol × Count) → List Entry
  | _, [] => []
  | k, p :: ps => ⟨prioOfCount p.2, p.1, valOfIndex k⟩ :: seedItems (k + 1) ps

/-- What the merge loop works on: the queue, the arena entries in use, and the draws made so far. -/
structure Build where
  /-- `PQ`. -/
  pq : List Entry
  /-- `NODE[0 .. NODE_COUNT - 1]`. -/
  node : List Node
  /-- The draws made so far. -/
  draws : Nat
  deriving DecidableEq, Repr

/-- `min(a.tie, b.tie)` (41_tree_build.md R116). -/
def minTie (a b : Tie) : Tie := if a ≤ b then a else b

/-- The child order (41_tree_build.md R117): the left and right payload, for the first and second popped entry. -/
def childVals (co : ChildOrder) (a b : Entry) : Val × Val :=
  match co with
  | .secondLeft => (b.val, a.val)
  | .firstLeft => (a.val, b.val)

/-- The merge of two popped entries into the next arena entry (41_tree_build.md R113, step 3; R116). -/
def mergePair (co : ChildOrder) (a b : Entry) (pq : List Entry) (node : List Node) (draws : Nat) : Except Stop Build :=
  let l := indexOfVal (childVals co a b).1
  let r := indexOfVal (childVals co a b).2
  match nodeAt node l, nodeAt node r with
  | some nl, some nr =>
    .ok { pq := pqInsert ⟨a.prio + b.prio, minTie a.tie b.tie, valOfIndex node.length⟩ pq
          node := node ++ [.internal l r (a.prio + b.prio) (nodeSyms nl ||| nodeSyms nr)]
          draws := draws }
  | _, _ => .error (.fault .nodeNoValue)

/-- One pass of the loop: pop the two smallest entries and merge them (41_tree_build.md R113, step 3). -/
def mergeOnce (co : ChildOrder) (b : Build) : Except Stop Build :=
  match pqPop b.pq b.draws with
  | none => .error (.raise .emptyQueue)
  | some p =>
    match pqPop p.pq p.draws with
    | none => .error (.raise .emptyQueue)
    | some q => mergePair co p.entry q.entry q.pq b.node q.draws

/-- `while pq_size() > 1` (41_tree_build.md R113, step 3), at most `k` passes. Each pass takes one entry off the queue
(R122), so as many passes as the queue has entries are enough. -/
def mergeLoop (co : ChildOrder) : Nat → Build → Except Stop Build
  | 0, b => .ok b
  | k + 1, b =>
    if pqSize b.pq > 1 then
      match mergeOnce co b with
      | .ok b' => mergeLoop co k b'
      | .error e => .error e
    else .ok b

/-- Step 2 (41_tree_build.md R113): the leaves in ascending symbol order and the seeded queue. -/
def seedBuild (ps : List (Symbol × Count)) (draws : Nat) : Build :=
  { pq := pqBuildFrom (seedItems 0 ps), node := ps.map leafOf, draws := draws }

/-- Step 4 (41_tree_build.md R113, R118): the last entry is popped; its payload is the root. -/
def finishTree (b : Build) (s : State) : Except Stop State :=
  match pqPop b.pq b.draws with
  | none => .error (.raise .emptyQueue)
  | some p =>
    .ok { s with
      pq := p.pq, node := b.node, nodeCount := b.node.length, root := some (indexOfVal p.entry.val)
      treeValid := true, draws := p.draws }

/-- `build_tree()` (41_tree_build.md R113). The empty test comes before anything is written (R114). -/
def buildTree (co : ChildOrder) (s : State) : Except Stop State :=
  match tablePairs s.ft with
  | [] => .error (.raise .emptyInput)
  | p :: ps =>
    match mergeLoop co (p :: ps).length (seedBuild (p :: ps) s.draws) with
    | .error e => .error e
    | .ok b => finishTree b (clearDerived (clearPq s))

/-- `NODE[ROOT]`, where both hold a value. -/
def rootNode (s : State) : Option Node :=
  match s.root with
  | none => none
  | some i => nodeAt s.node i

/-! ## Commands -/

/-- FT_CLEAR (41_tree_build.md R111). -/
def execFtClear (s : State) : Host.Outcome State Fault Refusal := .next (respondOk (clearDerived (clearFt s)))

/-- FT_WRITE (41_tree_build.md R112). -/
def execFtWrite (sym : Symbol) (count : Count) (s : State) : Host.Outcome State Fault Refusal :=
  .next (respondOk (clearDerived (withFt (tableSet s.ft sym count) s)))

/-- BUILD_TREE (41_tree_build.md R119). -/
def execBuildTree (s : State) : Host.Outcome State Fault Refusal :=
  match buildTree Config.childOrder s with
  | .error e => stopWith e s
  | .ok t =>
    match rootNode t with
    | none => .fault .nodeNoValue
    | some n => .next (respond 0 (valOfIndex t.nodeCount) (nodeFreq n) t)

end Sys2Proof.Machine
end

