-- ==== Sys2Proof/Machine/Codes.lean ====
section
/-! DEFINITION. Code derivation (spec/42_code_derivation.md): `build_codes` (R130 to R132) and BUILD_CODES (R133). -/

namespace Sys2Proof.Machine

/-- `walk(i, path)` (42_code_derivation.md R130): 0 to the left, 1 to the right, and a leaf's code is its path. The number
bounds the depth, which in a tree is less than the number of nodes. -/
def codeWalk (node : List Node) : Nat → NodeIdx → Code → Table Code → Except Stop (Table Code)
  | 0, _, _, _ => .error (.fault .arenaCyclic)
  | k + 1, i, path, ct =>
    match nodeAt node i with
    | none => .error (.fault .nodeNoValue)
    | some (.leaf sym _ _) => .ok (tableSet ct sym path)
    | some (.internal l r _ _) =>
      match codeWalk node k l (path ++ [false]) ct with
      | .error e => .error e
      | .ok ct' => codeWalk node k r (path ++ [true]) ct'

/-- The codes of the tree whose root is `i` (42_code_derivation.md R130): a single leaf gets the one-bit code `0` (R131). -/
def treeCodes (node : List Node) (i : NodeIdx) : Except Stop (Table Code) :=
  match nodeAt node i with
  | none => .error (.fault .nodeNoValue)
  | some (.leaf sym _ _) => .ok (tableSet (tableEmpty Code) sym [false])
  | some (.internal _ _ _ _) => codeWalk node node.length i [] (tableEmpty Code)

/-- `build_codes()` (42_code_derivation.md R130): the code table; an empty tree yields an empty one (R132). -/
def buildCodes (s : State) : Except Stop (Table Code) :=
  if s.treeValid then
    match s.root with
    | none => .error (.fault .rootNoValue)
    | some i => treeCodes s.node i
  else .ok (tableEmpty Code)

/-- BUILD_CODES (42_code_derivation.md R133). -/
def execBuildCodes (s : State) : Host.Outcome State Fault Refusal :=
  match buildCodes s with
  | .error e => stopWith e s
  | .ok ct => .next (respondOk (withCt ct s))

end Sys2Proof.Machine
end

