-- ==== Sys2Proof/Machine/Header.lean ====
section
/-! DEFINITION. The header of a compressed file (spec/44_container_format.md): `hdr_serialize` (R151 to R153) and `hdr_parse`
with its parts (R155 to R161). ASCII values are those of the file's introduction. -/

namespace Sys2Proof.Machine

/-! ## Serialisation -/

/-- `hex(v)` (44_container_format.md R151), upper case. -/
def hexDigit (v : Nat) : Byte := if v ≤ 9 then BitVec.ofNat 8 (0x30 + v) else BitVec.ofNat 8 (0x41 + v - 10)

/-- `token(s)` (44_container_format.md R151), first matching row first. -/
def token (s : Symbol) : List Byte :=
  if s = 0x5C#8 then [0x5C, 0x5C]
  else if s = 0x0A#8 then [0x5C, 0x6E]
  else if s = 0x0D#8 then [0x5C, 0x72]
  else if s = 0x09#8 then [0x5C, 0x74]
  else if s = 0x20#8 then [0x5C, 0x73]
  else if s = 0x3A#8 then [0x5C, 0x3A]
  else if 0x21#8 ≤ s ∧ s ≤ 0x7E#8 then [s]
  else [0x5C, 0x78, hexDigit (s.toNat / 16), hexDigit (s.toNat % 16)]

/-- One decimal digit as ASCII. -/
def decDigit (v : Nat) : Byte := BitVec.ofNat 8 (0x30 + v)

/-- The decimal digits of `n` in front of `acc`, at most `k` of them. -/
def decDigits : Nat → Nat → List Byte → List Byte
  | 0, _, acc => acc
  | k + 1, n, acc => if n < 10 then decDigit n :: acc else decDigits k (n / 10) (decDigit (n % 10) :: acc)

/-- `dec(c)` (44_container_format.md R152): a 64-bit count has at most 20 digits. -/
def dec (c : Count) : List Byte := decDigits 20 c.toNat []

/-- One `token:frequency` pair (44_container_format.md R153). -/
def hdrPair (p : Symbol × Count) : List Byte := token p.1 ++ 0x3A#8 :: dec p.2

/-- The pairs separated by single spaces (44_container_format.md R153). -/
def hdrPairs : List (Symbol × Count) → List Byte
  | [] => []
  | [p] => hdrPair p
  | p :: q :: ps => hdrPair p ++ 0x20#8 :: hdrPairs (q :: ps)

/-- `hdr_serialize(FT)` (44_container_format.md R153). -/
def hdrSerialize (ft : Table Count) : List Byte := hdrPairs (tablePairs ft) ++ [0x0A, 0x0A]

/-! ## Deserialisation -/

/-- The whitespace bytes of the parser (44_container_format.md R157). -/
def isSpace (b : Byte) : Bool := b = 0x20#8 || b = 0x09#8 || b = 0x0B#8 || b = 0x0C#8 || b = 0x0D#8

/-- `tokens(line)` (44_container_format.md R157), `cur` being the token begun. -/
def tokensFrom : List Byte → List Byte → List (List Byte)
  | cur, [] => if cur = [] then [] else [cur]
  | cur, b :: bs =>
    if isSpace b then
      if cur = [] then tokensFrom [] bs else cur :: tokensFrom [] bs
    else tokensFrom (cur ++ [b]) bs

/-- `tokens(line)` (44_container_format.md R157). -/
def tokens (line : List Byte) : List (List Byte) := tokensFrom [] line

/-- The split of a token at the first colon that is not the second byte of an escape (44_container_format.md R158). -/
def splitToken : List Byte → Option (List Byte × List Byte)
  | [] => none
  | [b] => if b = 0x3A#8 then some ([], []) else none
  | b :: e :: bs =>
    if b = 0x3A#8 then some ([], e :: bs)
    else if b = 0x5C#8 then
      match splitToken bs with
      | none => none
      | some (l, r) => some (b :: e :: l, r)
    else
      match splitToken (e :: bs) with
      | none => none
      | some (l, r) => some (b :: l, r)

/-- The value of a hexadecimal digit of either case (44_container_format.md R159). -/
def hexVal (b : Byte) : Option Nat :=
  if 0x30#8 ≤ b ∧ b ≤ 0x39#8 then some (b.toNat - 0x30)
  else if 0x41#8 ≤ b ∧ b ≤ 0x46#8 then some (b.toNat - 0x41 + 10)
  else if 0x61#8 ≤ b ∧ b ≤ 0x66#8 then some (b.toNat - 0x61 + 10)
  else none

/-- The six two-byte escapes, by their second byte (44_container_format.md R159). -/
def unescapePair (e : Byte) : Option Symbol :=
  if e = 0x5C#8 then some 0x5C
  else if e = 0x6E#8 then some 0x0A
  else if e = 0x72#8 then some 0x0D
  else if e = 0x74#8 then some 0x09
  else if e = 0x73#8 then some 0x20
  else if e = 0x3A#8 then some 0x3A
  else none

/-- `unescape(L)` (44_container_format.md R159): exactly one symbol, or `none` for `InvalidHeaderToken`. -/
def unescape : List Byte → Option Symbol
  | [b] => if 0x21#8 ≤ b ∧ b ≤ 0x7E#8 ∧ b ≠ 0x5C#8 then some b else none
  | [b, e] => if b = 0x5C#8 then unescapePair e else none
  | [b, x, h, l] =>
    if b = 0x5C#8 ∧ x = 0x78#8 then
      match hexVal h, hexVal l with
      | some vh, some vl => some (BitVec.ofNat 8 (16 * vh + vl))
      | _, _ => none
    else none
  | _ => none

/-- The number that decimal digits spell, most significant first, `none` at any other byte (44_container_format.md R160). -/
def decValue : Nat → List Byte → Option Nat
  | n, [] => some n
  | n, b :: bs => if 0x30#8 ≤ b ∧ b ≤ 0x39#8 then decValue (10 * n + (b.toNat - 0x30)) bs else none

/-- `parse_count(R)` (44_container_format.md R160): one or more digits, less than 2^64. -/
def parseCount (r : List Byte) : Option Count :=
  match r with
  | [] => none
  | b :: bs =>
    match decValue 0 (b :: bs) with
    | none => none
    | some n => if n < 2 ^ 64 then some (BitVec.ofNat 64 n) else none

/-- `parse_token(t)` (44_container_format.md R158). -/
def parseToken (t : List Byte) : Except Raise (Symbol × Count) :=
  match splitToken t with
  | none => .error .invalidHeaderToken
  | some (l, r) =>
    match unescape l with
    | none => .error .invalidHeaderToken
    | some s =>
      match parseCount r with
      | none => .error .invalidHeaderToken
      | some c => .ok (s, c)

/-- The pairs of one line put into the table, left to right; a later pair of a symbol replaces an earlier
(44_container_format.md R155, R161). -/
def fillTable (t : Table Count) : List (List Byte) → Except Raise (Table Count)
  | [] => .ok t
  | tok :: toks =>
    match parseToken tok with
    | .error r => .error r
    | .ok (s, c) => fillTable (tableSet t s c) toks

/-- The loop of `hdr_parse` (44_container_format.md R155), `line` being the part of the current line already read: the
table, and what is left in `IN`. A line of length 0 ends the header (R156). -/
def hdrParseFrom (t : Table Count) (line : List Byte) : List Byte → Except Raise (Table Count × List Byte)
  | [] => .error .invalidHeaderToken
  | c :: rest =>
    if c = 0x0A#8 then
      if line = [] then .ok (t, rest)
      else
        match fillTable t (tokens line) with
        | .error r => .error r
        | .ok t' => hdrParseFrom t' [] rest
    else hdrParseFrom t (line ++ [c]) rest

/-- `hdr_parse()` (44_container_format.md R155). -/
def hdrParse (inp : List Byte) : Except Raise (Table Count × List Byte) := hdrParseFrom (tableEmpty Count) [] inp

end Sys2Proof.Machine
end

