-- ==== Sys2Proof/Machine/Walk.lean ====
section
/-! DEFINITION. The bit decoder (spec/43_bit_decoder.md): `walk_decode` (R140 to R146). -/

namespace Sys2Proof.Machine

/-- The bits of a byte, most significant first (20_memory.md R57). -/
def byteBits (b : Byte) : List Bit := (List.range 8).map fun j => b.getLsbD (7 - j)

/-- The bits of a byte sequence in transmission order (20_memory.md R57). -/
def streamBits : List Byte → List Bit
  | [] => []
  | b :: bs => byteBits b ++ streamBits bs

/-- The valid bits of a payload (43_bit_decoder.md R142): all but the last `pad`, and none of an empty payload. -/
def validBits (payload : List Byte) (pad : Byte) : List Bit :=
  match payload with
  | [] => []
  | b :: bs => (streamBits (b :: bs)).take (8 * (b :: bs).length - pad.toNat)

/-- Where one bit leads from a node (43_bit_decoder.md R140, R145): to a child of an internal node, and nowhere from a
leaf. -/
def walkMove (n : Node) (cur : NodeIdx) (bit : Bit) : NodeIdx :=
  match n with
  | .internal l r _ _ => if bit then r else l
  | .leaf _ _ _ => cur

/-- The loop of `walk_decode` (43_bit_decoder.md R140) from the cursor `cur`: the symbols emitted and how it stops. A cursor
off the root after the last bit is `TruncatedStream` (R144). -/
def walkBits (node : List Node) (root : NodeIdx) : NodeIdx → List Bit → List Byte × Option Stop
  | cur, [] => ([], if cur = root then none else some (.raise .truncatedStream))
  | cur, b :: bs =>
    match nodeAt node cur with
    | none => ([], some (.fault .nodeNoValue))
    | some n =>
      match nodeAt node (walkMove n cur b) with
      | none => ([], some (.fault .nodeNoValue))
      | some (.leaf sym _ _) =>
        let r := walkBits node root root bs
        (sym :: r.1, r.2)
      | some (.internal _ _ _ _) => walkBits node root (walkMove n cur b) bs

/-- `walk_decode(P, pad)` (43_bit_decoder.md R140): the padding test comes before any bit (R143). -/
def walkDecode (node : List Node) (root : NodeIdx) (payload : List Byte) (pad : Byte) : List Byte × Option Stop :=
  if pad > 7 then ([], some (.raise (.malformedPadding pad)))
  else walkBits node root root (validBits payload pad)

end Sys2Proof.Machine
end

