-- ==== Sys2Proof/Machine/Container.lean ====
section
/-! DEFINITION. The container format's payload (spec/44_container_format.md R162, R163) and the commands ENCODE (R164) and
DECODE (R165). -/

namespace Sys2Proof.Machine

/-- `byte(b0 .. b7)`: the first bit is the most significant (44_container_format.md R162). -/
def byteOf (bits : List Bit) : Byte := BitVec.ofNat 8 (bits.foldl (fun n b => 2 * n + b.toNat) 0)

/-- The inner loop of `payload_pack` (44_container_format.md R162): the bits of one code enter the buffer; the bytes
emitted and the buffer left. -/
def packCode : List Bit → Code → List Byte × List Bit
  | buf, [] => ([], buf)
  | buf, c :: cs =>
    if (buf ++ [c]).length = 8 then
      let r := packCode [] cs
      (byteOf (buf ++ [c]) :: r.1, r.2)
    else packCode (buf ++ [c]) cs

/-- The end of `payload_pack` (44_container_format.md R162): leftover bits are filled with zeros, and the padding count is
always written. -/
def packFlush (buf : List Bit) : List Byte :=
  if buf.length > 0 then
    [byteOf (buf ++ List.replicate (8 - buf.length) false), BitVec.ofNat 8 (8 - buf.length)]
  else [0]

/-- `payload_pack()` (44_container_format.md R162) with `buf` pending: the bytes emitted and the error raised, if any. -/
def payloadPackFrom (ct : Table Code) : List Bit → List Byte → List Byte × Option Raise
  | buf, [] => (packFlush buf, none)
  | buf, s :: rest =>
    match tableGet ct s with
    | none => ([], some (.unmappedSymbol s))
    | some code =>
      let r := payloadPackFrom ct (packCode buf code).2 rest
      ((packCode buf code).1 ++ r.1, r.2)

/-- `payload_pack()` (44_container_format.md R162). -/
def payloadPack (ct : Table Code) (inp : List Byte) : List Byte × Option Raise := payloadPackFrom ct [] inp

/-- The emission sequence of ENCODE (44_container_format.md R164) and the error raised, if any. -/
def encodeEmission (s : State) : List Byte × Option Raise :=
  let r := payloadPack s.ct s.inp
  (hdrSerialize s.ft ++ r.1, r.2)

/-- ENCODE (44_container_format.md R164). -/
def execEncode (s : State) : Host.Outcome State Fault Refusal :=
  match encodeEmission s with
  | (e, none) => .next (respondOk (deliver e (consumeIn s)))
  | (e, some r) => .next (raise r (deliverPrefix e (consumeIn s)))

/-- `payload_unpack()` (44_container_format.md R163): the last byte is the padding count; with no byte at all the stream is
truncated. -/
def payloadUnpack (node : List Node) (root : NodeIdx) (rest : List Byte) : List Byte × Option Stop :=
  match rest with
  | [] => ([], some (.raise .truncatedStream))
  | b :: bs => walkDecode node root ((b :: bs).dropLast) ((b :: bs).getLast (List.cons_ne_nil b bs))

/-- The start of DECODE: a fresh run (44_container_format.md R165). -/
def decodeStart (s : State) : State := clearDerived (clearPq (clearFt s))

/-- The end of DECODE, from the built tree and what follows the header (44_container_format.md R165). -/
def decodePayload (rest : List Byte) (s : State) : Host.Outcome State Fault Refusal :=
  match s.root with
  | none => .fault .rootNoValue
  | some root =>
    match payloadUnpack s.node root rest with
    | (e, none) => .next (respondOk (deliver e s))
    | (e, some st) => stopWith st (deliverPrefix e s)

/-- DECODE (44_container_format.md R165). `IN` is empty when it ends, with any status (60_exceptions.md R193). -/
def execDecode (s : State) : Host.Outcome State Fault Refusal :=
  match hdrParse s.inp with
  | .error r => .next (raise r (consumeIn (decodeStart s)))
  | .ok (t, rest) =>
    match buildTree Config.childOrder (withFt t (consumeIn (decodeStart s))) with
    | .error e => stopWith e (withFt t (consumeIn (decodeStart s)))
    | .ok s' => decodePayload rest s'

end Sys2Proof.Machine
end

