-- ==== Sys2Proof/Machine/Flags.lean ====
section
/-! DEFINITION. The block's one-bit state (spec/10_state.md R39). It has no condition codes: the flags are the present bits
of `FT`, the length-zero test of `CT`, and `TREE_VALID`, which is a field of the state. -/

namespace Sys2Proof.Machine

/-- `FT_PRESENT[s]` (10_state.md R23). -/
def ftPresent (s : State) (sym : Symbol) : Bool := (tableGet s.ft sym).isSome

/-- `CT_LEN[s]`: the length of the symbol's code, 0 when it is absent (10_state.md R33). -/
def ctLen (s : State) (sym : Symbol) : Nat :=
  match tableGet s.ct sym with
  | some code => code.length
  | none => 0

/-- `|FT|`, the number of present entries (10_state.md R23). -/
def ftSize (s : State) : Nat := (symbols s.ft).length

end Sys2Proof.Machine
end

