-- ==== Sys2Proof/Machine/Dispatch.lean ====
section
/-! DEFINITION. One arm per command: the meaning of each row of spec/30_encoding.md R74. -/

namespace Sys2Proof.Machine

def exec (i : Instr) (s : State) : Host.Outcome State Fault Refusal :=
  match i with
  | .pqClear => Sys2Proof.Machine.execPqClear s
  | .pqPush prio tie val => Sys2Proof.Machine.execPqPush prio tie val s
  | .pqPop => Sys2Proof.Machine.execPqPop s
  | .pqSize => Sys2Proof.Machine.execPqSize s
  | .ftClear => Sys2Proof.Machine.execFtClear s
  | .ftWrite sym count => Sys2Proof.Machine.execFtWrite sym count s
  | .buildTree => Sys2Proof.Machine.execBuildTree s
  | .buildCodes => Sys2Proof.Machine.execBuildCodes s
  | .encode => Sys2Proof.Machine.execEncode s
  | .decode => Sys2Proof.Machine.execDecode s

end Sys2Proof.Machine
end

