-- ==== Sys2Proof/Machine/HostMoves.lean ====
section
/-! DEFINITION. The moves of the host (spec/20_memory.md R52, R53; 70_reset_and_hazards.md R210), the issue of a command
(10_state.md R38, 30_encoding.md R78), and the pseudo-commands LOADFT and COMPRESS (30_encoding.md R80). -/

namespace Sys2Proof.Machine

/-- The issue of a descriptor: an illegal one changes nothing but `RSP` (30_encoding.md R76, 60_exceptions.md R188), any
other is executed. -/
def issue (d : Descriptor) (s : State) : Host.Outcome State Fault Refusal :=
  match decode d with
  | .ok i => exec i s
  | .error _ => .next (raise .illegalCommand s)

/-- `in_append(bytes)` (20_memory.md R52). -/
def inAppend (bytes : List Byte) (s : State) : State := { s with inp := s.inp ++ bytes }

/-- `out_drain(k)` (20_memory.md R53): the host receives the first `k` bytes of `OUT`. There is no such move for `k`
greater than `|OUT|`. -/
def outDrain (k : Nat) (s : State) : Host.Outcome State Fault Refusal :=
  if k ≤ s.out.length then .next { s with out := s.out.drop k, received := s.received ++ s.out.take k }
  else .refused .drainBeyondOut

/-- Reset (70_reset_and_hazards.md R210): the block's whole state takes its reset values. The host's side of the interface
and the count of draws are not the block's and stay (assumption log 7). -/
def resetBlock (s : State) : State :=
  { State.reset with draws := s.draws, moves := s.moves, received := s.received, faultLog := s.faultLog }

/-- One move of the host. -/
def perform (m : HostMove) (s : State) : Host.Outcome State Fault Refusal :=
  match m with
  | .command d => issue d s
  | .inAppend bytes => .next (inAppend bytes s)
  | .outDrain k => outDrain k s
  | .reset => .next (resetBlock s)

/-- One step of the system: the host's next move; with none the block is idle, its state held (60_exceptions.md R201;
assumption log 1). -/
def nextMove (s : State) : Host.Outcome State Fault Refusal :=
  match s.moves with
  | [] => .next s
  | m :: rest => perform m { s with moves := rest }

/-- A descriptor placed as the host's very next move. -/
def placeCommand (d : Descriptor) (s : State) : State := { s with moves := .command d :: s.moves }

/-! ## Pseudo-commands -/

/-- `LOADFT s1:c1, ..., sk:ck` (30_encoding.md R80). -/
def loadft (pairs : List (Symbol × Count)) : List Instr :=
  .ftClear :: pairs.map fun p => .ftWrite p.1 p.2

/-- Commands issued one after the other, each only if the one before returned `OK` (30_encoding.md R80). -/
def execWhileOk : List Instr → State → Host.Outcome State Fault Refusal
  | [], s => .next s
  | i :: is, s =>
    match exec i s with
    | .next t => if rspStatus t.rsp = statusOk then execWhileOk is t else .next t
    | .fault f => .fault f
    | .refused r => .refused r

/-- `COMPRESS` (30_encoding.md R80). -/
def compress : List Instr := [.buildTree, .buildCodes, .encode]

end Sys2Proof.Machine
end

