-- ==== Sys2Proof/Machine/Step.lean ====
section
/-! DEFINITION. One step: the block fetches nothing (spec/10_state.md R21), so a step is the host's next move, and a command
is one atomic step (00_scope.md R15). -/

namespace Sys2Proof.Machine

/-- One step of the machine. -/
def step (s : State) : Host.Outcome State Fault Refusal := nextMove s

/-- `s` with the descriptor of `w` placed as the host's very next move: what stands for a fetch here is a write to the
command port. -/
def State.withFetchWord (s : State) (nbits w : Nat) : State := placeCommand (descriptorOfTable nbits w) s

end Sys2Proof.Machine
end

