-- ==== Sys2Proof/Safety.lean ====
section
/-! DEFINITION. What counts as a good state, and the declarative notions the claims are stated in: the invariant across the
state (spec/10_state.md R41) with the queue's canonical form, minimal entries (40_priority_queue.md R91), the merge as a
relation on collections (41_tree_build.md R113), and paths through the arena (42_code_derivation.md R130). -/

namespace Sys2Proof.Machine

/-- The canonical form of the queue's list: ascending, so that equal collections are equal lists. The model's choice
(assumption log 9). -/
abbrev queueWf (pq : List Entry) : Prop := pq.Pairwise fun x y => entryLe x y = true

/-- `m` is a minimal entry of the queue: no entry has a smaller key (40_priority_queue.md R91). -/
abbrev isMinimal (m : Entry) (pq : List Entry) : Prop := m ∈ pq ∧ ∀ e ∈ pq, keyLt e m = false

/-- The arena and root that `build_tree` produces from a frequency table alone, in a fresh block (10_state.md R41). -/
def builtFrom (ft : Table Count) : Option (List Node × NodeIdx) :=
  match buildTree Config.childOrder { State.reset with ft := ft } with
  | .ok t => t.root.map fun r => (t.node, r)
  | .error _ => none

/-- The queue holds at most `PQ_CAP` entries (10_state.md R25), in its canonical form (assumption log 9). -/
def queueOk (s : State) : Prop := queueWf s.pq ∧ s.pq.length ≤ Config.pqCap

/-- A valid tree is what `build_tree` produces from the current `FT` (10_state.md R41 a); without one the arena and `ROOT`
hold no value and `NODE_COUNT` is 0 (R29). -/
def treeOk (s : State) : Prop :=
  match s.treeValid with
  | true => s.nodeCount = s.node.length ∧ ∃ r, s.root = some r ∧ builtFrom s.ft = some (s.node, r)
  | false => s.node = [] ∧ s.nodeCount = 0 ∧ s.root = none

/-- A code table with an entry is what `build_codes` produces from the current, valid tree (10_state.md R41 b). -/
def codesOk (s : State) : Prop :=
  s.ct = tableEmpty Code ∨ (s.treeValid = true ∧ buildCodes s = .ok s.ct)

/-- The status values that exist (60_exceptions.md R181). -/
def statusValues : List Byte := [0x00, 0x01, 0x02, 0x03, 0x04, 0x05, 0x06, 0x80, 0x81]

/-- A response has an existing status and zero bits [95:72] (30_encoding.md R72, 60_exceptions.md R181). -/
def responseOk (w : Response) : Prop := rspStatus w ∈ statusValues ∧ rspZero w = 0

/-- The invariant across the state between commands (10_state.md R41), with the queue's and the response's. -/
def State.Inv (s : State) : Prop := queueOk s ∧ treeOk s ∧ codesOk s ∧ responseOk s.rsp

/-- The step goes on: no fault of the model, no refusal. -/
def goesOn (o : Host.Outcome State Fault Refusal) : Prop := ∃ t, o = .next t

/-- One merge on collections (41_tree_build.md R113 step 3): `a` is minimal, `b` is minimal among the rest, the two leave
and the merged entry enters; the new node takes the next index. It says nothing of how the queue is listed. -/
inductive Merges (co : ChildOrder) : List Entry × List Node → List Entry × List Node → Prop
  | step (a b : Entry) (rest pq : List Entry) (node : List Node) (nl nr : Node)
      (ha : isMinimal a (a :: b :: rest)) (hb : isMinimal b (b :: rest))
      (hl : nodeAt node (indexOfVal (childVals co a b).1) = some nl)
      (hr : nodeAt node (indexOfVal (childVals co a b).2) = some nr)
      (hpq : pq.Perm (a :: b :: rest)) :
      Merges co (pq, node)
        (⟨a.prio + b.prio, minTie a.tie b.tie, valOfIndex node.length⟩ :: rest,
          node ++ [.internal (indexOfVal (childVals co a b).1) (indexOfVal (childVals co a b).2) (a.prio + b.prio)
            (nodeSyms nl ||| nodeSyms nr)])

/-- The abstract view of a tree (10_state.md R32): a leaf with its symbol and frequency, or a node with its two subtrees
and its frequency. -/
inductive HTree
  /-- `Leaf(SYM, FREQ)`. -/
  | leaf (sym : Symbol) (freq : Prio)
  /-- `Node(left, right, FREQ)`. -/
  | node (left right : HTree) (freq : Prio)
  deriving DecidableEq, Repr

/-- `FREQ` of the root of a tree. -/
def HTree.freq : HTree → Prio
  | .leaf _ f => f
  | .node _ _ f => f

/-- The leaves of a tree, left to right. -/
def HTree.leaves : HTree → List (Symbol × Prio)
  | .leaf s f => [(s, f)]
  | .node l r _ => l.leaves ++ r.leaves

/-- The path from the root of a tree to each of its leaves, left = 0, right = 1 (10_state.md R33). -/
def HTree.paths : HTree → List (Symbol × Code)
  | .leaf s _ => [(s, [])]
  | .node l r _ => (l.paths.map fun p => (p.1, false :: p.2)) ++ r.paths.map fun p => (p.1, true :: p.2)

/-- `tree_of(i)` is the tree `t` (10_state.md R32). -/
inductive IsTree (node : List Node) : NodeIdx → HTree → Prop
  | leaf (i : NodeIdx) (s : Symbol) (f : Prio) (y : SymSet) (h : nodeAt node i = some (.leaf s f y)) :
      IsTree node i (.leaf s f)
  | internal (i l r : NodeIdx) (f : Prio) (y : SymSet) (tl tr : HTree)
      (h : nodeAt node i = some (.internal l r f y)) (hl : IsTree node l tl) (hr : IsTree node r tr) :
      IsTree node i (.node tl tr f)

/-- The arena's invariants (10_state.md R30 a, R31): a leaf's symbol set is its symbol; an internal node's children have
smaller indices, its frequency is the exact sum of theirs, and its symbol set is the disjoint union of theirs. -/
def arenaOk (node : List Node) : Prop :=
  (∀ (i : Nat) (s : Symbol) (f : Prio) (y : SymSet), node[i]? = some (Node.leaf s f y) → y = symsOf s) ∧
  ∀ (i : Nat) (l r : NodeIdx) (f : Prio) (y : SymSet), node[i]? = some (Node.internal l r f y) →
    l.toNat < i ∧ r.toNat < i ∧ ∃ nl nr, nodeAt node l = some nl ∧ nodeAt node r = some nr ∧
      f.toNat = (nodeFreq nl).toNat + (nodeFreq nr).toNat ∧ y = nodeSyms nl ||| nodeSyms nr ∧
      nodeSyms nl &&& nodeSyms nr = 0

/-- The node a bit sequence leads to from node `i`: 0 to the left child, 1 to the right child (42_code_derivation.md R130). -/
def followPath (node : List Node) : NodeIdx → Code → Option Node
  | i, [] => nodeAt node i
  | i, b :: bs =>
    match nodeAt node i with
    | some (.internal l r _ _) => followPath node (if b then r else l) bs
    | _ => none

/-- The children an arena entry owns (10_state.md R28). -/
def nodeChildren : Node → List NodeIdx
  | .leaf _ _ _ => []
  | .internal l r _ _ => [l, r]

/-- The code bits of an input, in input order; an unmapped byte contributes none. -/
def codeBits (ct : Table Code) : List Byte → List Bit
  | [] => []
  | b :: bs => (tableGet ct b).getD [] ++ codeBits ct bs

/-- The sum of all counts of a frequency table, as a natural number (10_state.md R30 e). -/
def countTotal (ft : Table Count) : Nat := ((tablePairs ft).map fun p => p.2.toNat).sum

end Sys2Proof.Machine
end

