-- ==== Sys2Proof/Certificates/Slice0/Obligations.lean ====
section
/-! DEFINITION. The statements for the provers, each formalising numbered rules of spec/ or resting on its sections. An
equation `exec i s = .next { s with … }` states the instruction's result and its whole frame at once: every field not named
keeps its value. The fields `draws`, `moves`, `received` and `faultLog` are the MODEL's own (assumption logs 1 to 4): where a
statement says what becomes of one, that clause is the model's choice and no rule of the spec; where it binds one with `∃`,
it says nothing of it. -/

open Sys2Proof Sys2Proof.Machine

/-! ## Reset and the encoding -/

/-- 10_state.md R42: what reset leaves. (The model's own fields are not of the spec and not stated.) -/
def Obligations.ResetHoldsNothingBuilt : Prop :=
  (∀ sym, tableGet State.reset.ft sym = none) ∧ State.reset.pq = [] ∧ State.reset.treeValid = false ∧
    State.reset.nodeCount = 0 ∧ State.reset.root = none ∧ (∀ i, nodeAt State.reset.node i = none) ∧
    (∀ sym, tableGet State.reset.ct sym = none) ∧ State.reset.inp = [] ∧ State.reset.out = [] ∧
    State.reset.rsp = 0 ∧ rspStatus State.reset.rsp = statusOk

/-- 30_encoding.md R71, R74: the worked encodings, and the illegal word (which R81 derives from them). -/
def Obligations.WorkedWordsDecode : Prop :=
  decode 0x02410007000000000000000000000003 = .ok (.pqPush 3 0x41 0x0007) ∧
    decode 0x11420000000000000000000000000001 = .ok (.ftWrite 0x42 1) ∧
    decode 0x31000000000000000000000000000000 = .ok .decode ∧
    encode (.pqPush 3 0x41 0x0007) = 0x02410007000000000000000000000003 ∧
    encode (.ftWrite 0x42 1) = 0x11420000000000000000000000000001 ∧
    encode .decode = 0x31000000000000000000000000000000 ∧
    decode 0x31000000000000000000000000000001 = .error .operandNonZero

/-- 30_encoding.md R71, R73, R74, R78: the descriptor of every command, with every operand at every value, decodes to it. -/
def Obligations.DecodeOfEncode : Prop := ∀ i : Instr, decode (encode i) = .ok i

/-- 30_encoding.md R70, R76: a legal descriptor is the descriptor of the one command it decodes to: decoding drops no bit. -/
def Obligations.EncodeOfDecode : Prop := ∀ (d : Descriptor) (i : Instr), decode d = .ok i → encode i = d

/-- 30_encoding.md R74, R76, R78: a descriptor decodes to a command of a row exactly where `d AND mask = match` for that row,
and it is illegal exactly where it selects no row of the table. -/
def Obligations.DecodeSelectsTableRow : Prop :=
  ∀ d : Descriptor,
    (∀ r ∈ opcodeTable, r.selects d = true ↔ ∃ i, decode d = .ok i ∧ i.row = r) ∧
      ((∃ e, decode d = .error e) ↔ ∀ r ∈ opcodeTable, r.selects d = false)

/-- 30_encoding.md R71, R76: the descriptors that decode are those whose fields pass every legality check. -/
def Obligations.WellFormedDescriptorsDecode : Prop :=
  ∀ d : Descriptor, (Format.ofWord d).wellFormed = true ↔ ∃ i, decode d = .ok i

/-! ## Steps and host moves -/

/-- 60_exceptions.md R188: a descriptor that matches no row of the table ends with `ILLEGAL_COMMAND`, recording nothing, and
no other state of the block changes. -/
def Obligations.IllegalDescriptorOnlyReports : Prop :=
  ∀ (s : State) (d : Descriptor), (∀ r ∈ opcodeTable, r.selects d = false) →
    ∃ log, issue d s = .next { s with rsp := responseWord 0x80 0 0 0, faultLog := log }

/-- 00_scope.md R15, 10_state.md R38: where the host's next move writes a legal descriptor, the step is the execution of the
command it decodes to; an illegal one is answered with `ILLEGAL_COMMAND`. (The list of moves and the record are the model's
own fields, assumption logs 1 and 3.) -/
def Obligations.StepRunsIssuedCommand : Prop :=
  ∀ (s : State) (d : Descriptor) (rest : List HostMove), s.moves = .command d :: rest →
    (∀ i, decode d = .ok i → step s = exec i { s with moves := rest }) ∧
      ((∃ e, decode d = .error e) →
        step s = .next
          { s with moves := rest, rsp := responseWord 0x80 0 0 0, faultLog := s.faultLog ++ [0x80] })

/-- 20_memory.md R52, R53, 60_exceptions.md R201: the other host moves, and the idle step. The list of moves, the received
bytes and the idle step are the model's choice (assumption logs 1, 2 and 16). So is the refusal of a drain beyond `OUT`
(assumption log 17): R53 gives the move for `k` at most `|OUT|` alone and says nothing of a longer one. -/
def Obligations.HostMovesTakeEffect : Prop :=
  ∀ (s : State) (rest : List HostMove),
    (∀ bytes, s.moves = .inAppend bytes :: rest →
      step s = .next { s with moves := rest, inp := s.inp ++ bytes }) ∧
    (∀ k, s.moves = .outDrain k :: rest → k ≤ s.out.length →
      step s = .next { s with moves := rest, out := s.out.drop k, received := s.received ++ s.out.take k }) ∧
    (∀ k, s.moves = .outDrain k :: rest → s.out.length < k → step s = .refused .drainBeyondOut) ∧
    (s.moves = [] → step s = .next s)

/-- 70_reset_and_hazards.md R210: reset puts the whole state of the block into its reset values. (That the host's side of
the interface stays is the model's choice, assumption log 7.) -/
def Obligations.ResetMoveRestoresBlock : Prop :=
  ∀ (s : State) (rest : List HostMove), s.moves = .reset :: rest →
    step s = .next
      { s with
        moves := rest, ft := tableEmpty Count, pq := [], node := [], nodeCount := 0, root := none, treeValid := false
        ct := tableEmpty Code, inp := [], out := [], rsp := 0 }

/-! ## The priority queue -/

/-- 40_priority_queue.md R101. -/
def Obligations.PqClearEmptiesQueue : Prop :=
  ∀ s : State, exec .pqClear s = .next { s with pq := [], rsp := responseWord 0x00 0 0 0 }

/-- 40_priority_queue.md R102: one more occurrence of the entry while there is room, else `QUEUE_FULL` with the queue
unchanged. -/
def Obligations.PqPushStoresOneEntry : Prop :=
  ∀ (prio : Prio) (tie : Tie) (val : Val) (s : State),
    (s.pq.length < Config.pqCap → ∃ pq, pq.Perm (⟨prio, tie, val⟩ :: s.pq) ∧
      exec (.pqPush prio tie val) s = .next { s with pq := pq, rsp := responseWord 0x00 0 0 0 }) ∧
    (Config.pqCap ≤ s.pq.length → ∃ log, exec (.pqPush prio tie val) s =
      .next { s with rsp := responseWord 0x81 0 0 0, faultLog := log })

/-- 40_priority_queue.md R93, R103: a minimal entry leaves the queue and stands in the response; an empty queue faults. Which
of several minimal entries it is, is free (R97). -/
def Obligations.PqPopTakesAMinimalEntry : Prop :=
  ∀ s : State,
    (s.pq ≠ [] → ∃ m pq draws, isMinimal m s.pq ∧ s.pq.Perm (m :: pq) ∧ (∀ e ∈ pq, keyLt e m = false) ∧
      exec .pqPop s = .next { s with pq := pq, draws := draws, rsp := responseWord 0x00 m.tie m.val m.prio }) ∧
    (s.pq = [] → ∃ log, exec .pqPop s =
      .next { s with rsp := responseWord 0x06 0 0 0, faultLog := log })

/-- 40_priority_queue.md R97: where every other entry has a greater key, or the minimal entries are equal in payload too, the
pop is determined. -/
def Obligations.PqPopOfUniqueMinimum : Prop :=
  ∀ (s : State) (m : Entry), m ∈ s.pq → (∀ e ∈ s.pq, e = m ∨ keyLt m e = true) →
    ∃ draws, exec .pqPop s =
      .next { s with pq := s.pq.erase m, draws := draws, rsp := responseWord 0x00 m.tie m.val m.prio }

/-- 40_priority_queue.md R104. -/
def Obligations.PqSizeReportsLength : Prop :=
  ∀ s : State, exec .pqSize s = .next { s with rsp := responseWord 0x00 0 (BitVec.ofNat 16 s.pq.length) 0 }

/-- 40_priority_queue.md R95: bulk loading gives the state that pushing each item, in any order, gives. -/
def Obligations.BulkLoadEqualsPushesInAnyOrder : Prop :=
  ∀ items pushed : List Entry, pushed.Perm items →
    pqBuildFrom items = pushed.foldl (fun q e => pqInsert e q) []

/-! ## The frequency table -/

/-- 41_tree_build.md R111. -/
def Obligations.FtClearClearsTableTreeAndCodes : Prop :=
  ∀ s : State, exec .ftClear s =
    .next
      { s with
        ft := tableEmpty Count, node := [], nodeCount := 0, root := none, treeValid := false, ct := tableEmpty Code
        rsp := responseWord 0x00 0 0 0 }

/-- 41_tree_build.md R112: the one entry is written, every other keeps its value, the tree and the code table are cleared. -/
def Obligations.FtWriteStoresOneCount : Prop :=
  ∀ (sym : Symbol) (count : Count) (s : State),
    ∃ ft, (∀ r, tableGet ft r = if r = sym then some count else tableGet s.ft r) ∧
      exec (.ftWrite sym count) s =
        .next
          { s with
            ft := ft, node := [], nodeCount := 0, root := none, treeValid := false, ct := tableEmpty Code
            rsp := responseWord 0x00 0 0 0 }

/-- 30_encoding.md R80: `LOADFT` leaves a table in which each symbol has the last count written for it, and no other
symbol is present. -/
def Obligations.LoadftLoadsTheTable : Prop :=
  ∀ (pairs : List (Symbol × Count)) (s : State),
    ∃ t, execWhileOk (loadft pairs) s = .next t ∧ rspStatus t.rsp = statusOk ∧ t.treeValid = false ∧
      ∀ sym, tableGet t.ft sym = (pairs.reverse.find? fun p => p.1 = sym).map Prod.snd

/-! ## The tree -/

/-- 41_tree_build.md R114, 60_exceptions.md R191: BUILD_TREE on an empty table changes nothing but `RSP` (and the model's own
record, assumption log 3). -/
def Obligations.BuildTreeOnEmptyTable : Prop :=
  ∀ s : State, symbols s.ft = [] →
    exec .buildTree s = .next { s with rsp := responseWord 0x01 0 0 0, faultLog := s.faultLog ++ [0x01] }

/-- 41_tree_build.md R119, R122, 10_state.md R31, 40_priority_queue.md R100: on a table that is not empty BUILD_TREE
completes from every state, with `2n - 1` nodes, the root last, the queue empty, the code table clear, and no free choice
drawn; the response carries the node count and the root's frequency. -/
def Obligations.BuildTreeCompletes : Prop :=
  ∀ s : State, symbols s.ft ≠ [] →
    ∃ node root n, node.length + 1 = 2 * (symbols s.ft).length ∧ node.length ≤ Config.nodeCap ∧
      root.toNat + 1 = node.length ∧ nodeAt node root = some n ∧
      exec .buildTree s =
        .next
          { s with
            pq := [], node := node, nodeCount := node.length, root := some root, treeValid := true
            ct := tableEmpty Code, rsp := responseWord 0x00 0 (BitVec.ofNat 16 node.length) (nodeFreq n) }

/-- 41_tree_build.md R120: the tree is a function of the frequency table alone, whatever the rest of the state and the free
choices are. -/
def Obligations.TreeIsAFunctionOfTheTable : Prop :=
  ∀ s s' : State, s.ft = s'.ft → symbols s.ft ≠ [] →
    ∃ t t', exec .buildTree s = .next t ∧ exec .buildTree s' = .next t' ∧
      t.node = t'.node ∧ t.root = t'.root ∧ t.nodeCount = t'.nodeCount ∧ t.rsp = t'.rsp

/-- 41_tree_build.md R113: under either child order the builder's arena and root come from the leaves by merges on
collections, each taking two entries of least key, however a queue would list them. -/
def Obligations.BuildTreeFollowsTheMerges : Prop :=
  ∀ (co : ChildOrder) (s : State), symbols s.ft ≠ [] →
    ∃ t e, buildTree co s = .ok t ∧ t.root = some (indexOfVal e.val) ∧
      Relation.ReflTransGen (Merges co) (seedItems 0 (tablePairs s.ft), (tablePairs s.ft).map leafOf) ([e], t.node)

/-- 10_state.md R30 (a), R31: the leaves stand first, in ascending symbol order; every internal node has smaller children,
the exact sum of their frequencies, and the disjoint union of their symbol sets. -/
def Obligations.BuiltArenaIsOrderedAndSummed : Prop :=
  ∀ s : State, symbols s.ft ≠ [] →
    ∃ t, exec .buildTree s = .next t ∧ arenaOk t.node ∧
      (∀ (k : Nat) (sym : Symbol) (c : Count), (tablePairs s.ft)[k]? = some (sym, c) →
        t.node[k]? = some (.leaf sym (c.setWidth 72) (symsOf sym))) ∧
      ∀ (k : Nat) (n : Node), (symbols s.ft).length ≤ k → t.node[k]? = some n → ∃ l r f y, n = .internal l r f y

/-- 10_state.md R30 (b): each node but the root is the child of exactly one node, once. -/
def Obligations.EachNodeHasOneParent : Prop :=
  ∀ s : State, symbols s.ft ≠ [] →
    ∃ t, exec .buildTree s = .next t ∧
      (t.node.flatMap fun n => (nodeChildren n).map BitVec.toNat).Perm (List.range (t.node.length - 1))

/-- 10_state.md R30 (e), 41_tree_build.md R121: the root's frequency, as the response reports it, is the exact sum of all
counts. -/
def Obligations.FrequencyIsConserved : Prop :=
  ∀ s : State, symbols s.ft ≠ [] →
    ∃ t n, exec .buildTree s = .next t ∧ rootNode t = some n ∧ (nodeFreq n).toNat = countTotal s.ft ∧
      (rspPrio t.rsp).toNat = countTotal s.ft

/-! ## The codes -/

/-- 42_code_derivation.md R132: without a tree BUILD_CODES leaves every entry absent and succeeds. -/
def Obligations.BuildCodesOnEmptyTree : Prop :=
  ∀ s : State, s.treeValid = false →
    exec .buildCodes s = .next { s with ct := tableEmpty Code, rsp := responseWord 0x00 0 0 0 }

/-- 42_code_derivation.md R131: a single leaf's symbol has the one-bit code `0`, and no other symbol has a code. -/
def Obligations.SingleLeafGetsCodeZero : Prop :=
  ∀ (s : State) (root : NodeIdx) (sym : Symbol) (f : Prio) (y : SymSet), s.treeValid = true → s.root = some root →
    nodeAt s.node root = some (.leaf sym f y) →
    ∃ ct, (∀ r, tableGet ct r = if r = sym then some [false] else none) ∧
      exec .buildCodes s = .next { s with ct := ct, rsp := responseWord 0x00 0 0 0 }

/-- 42_code_derivation.md R134 (a), R135: with a valid tree BUILD_CODES completes; exactly the present symbols have a code,
of 1 to 255 bits. -/
def Obligations.BuildCodesCompletes : Prop :=
  ∀ s : State, s.Inv → s.treeValid = true →
    ∃ ct, exec .buildCodes s = .next { s with ct := ct, rsp := responseWord 0x00 0 0 0 } ∧
      (∀ sym, (tableGet ct sym).isSome = (tableGet s.ft sym).isSome) ∧
      ∀ sym c, tableGet ct sym = some c → 1 ≤ c.length ∧ c.length ≤ Config.maxCodeLen

/-- 42_code_derivation.md R134 (b): no code is a prefix of another. -/
def Obligations.CodesArePrefixFree : Prop :=
  ∀ s : State, s.Inv → s.treeValid = true →
    ∃ t, exec .buildCodes s = .next t ∧
      ∀ sym sym' c c', tableGet t.ct sym = some c → tableGet t.ct sym' = some c' → c <+: c' → sym = sym'

/-- 42_code_derivation.md R130: with two or more symbols a code is the path from the root to its symbol's leaf. -/
def Obligations.CodesAreRootToLeafPaths : Prop :=
  ∀ s : State, s.Inv → s.treeValid = true → 2 ≤ (symbols s.ft).length →
    ∃ t root, exec .buildCodes s = .next t ∧ s.root = some root ∧
      ∀ sym c, tableGet t.ct sym = some c → ∃ f y, followPath s.node root c = some (.leaf sym f y)

/-! ## ENCODE -/

/-- 44_container_format.md R162, R164: where every input byte has a code, ENCODE emits the header, the codes packed most
significant bit first with zero padding, and the padding count `(8 - N mod 8) mod 8`. -/
def Obligations.EncodePacksEveryCode : Prop :=
  ∀ s : State, (∀ b ∈ s.inp, (tableGet s.ct b).isSome = true) →
    ∃ p pad, streamBits p = codeBits s.ct s.inp ++ List.replicate pad.toNat false ∧
      pad.toNat = (8 - (codeBits s.ct s.inp).length % 8) % 8 ∧ p.length = ((codeBits s.ct s.inp).length + 7) / 8 ∧
      exec .encode s =
        .next
          { s with
            inp := [], out := s.out ++ (hdrSerialize s.ft ++ p ++ [pad]), rsp := responseWord 0x00 0 0 0 }

/-- 44_container_format.md R164, 60_exceptions.md R183, R191: at the first input byte without a code ENCODE faults with it;
the emission is the header and the payload bytes completed before, and `OUT` gains some prefix of that. (The record is the
model's own field, assumption log 3.) -/
def Obligations.EncodeStopsAtUnmappedSymbol : Prop :=
  ∀ (s : State) (pre post : List Byte) (sym : Symbol), s.inp = pre ++ sym :: post →
    (∀ b ∈ pre, (tableGet s.ct b).isSome = true) → tableGet s.ct sym = none →
    ∃ p k draws,
      streamBits p = (codeBits s.ct pre).take (8 * ((codeBits s.ct pre).length / 8)) ∧
      exec .encode s =
        .next
          { s with
            inp := [], out := s.out ++ (hdrSerialize s.ft ++ p).take k, draws := draws
            rsp := responseWord 0x02 sym 0 0, faultLog := s.faultLog ++ [0x02] }

/-- 44_container_format.md R151, R153: the header is printable ASCII but for its last two bytes, the only newlines (what R154
derives from them). -/
def Obligations.HeaderIsAscii : Prop :=
  ∀ ft : Table Count, ∃ h, hdrSerialize ft = h ++ [0x0A, 0x0A] ∧ ∀ b ∈ h, 0x20#8 ≤ b ∧ b ≤ 0x7E#8

/-- 44_container_format.md R167, R168: a header reads back as the table it was written from, with what follows it left in
`IN`; for the empty table the second newline is left. -/
def Obligations.HeaderRoundTrip : Prop :=
  ∀ (t : Table Count) (z : List Byte),
    (symbols t ≠ [] → hdrParse (hdrSerialize t ++ z) = .ok (t, z)) ∧
      (symbols t = [] → hdrParse (hdrSerialize t ++ z) = .ok (t, 0x0A :: z))

/-- 44_container_format.md R155, R156, R161: pairs may stand on any number of lines, in any order and repeated: each symbol
has its last count, and a symbol that no pair names is absent. -/
def Obligations.HeaderPairsMayRepeatOverLines : Prop :=
  ∀ (lines : List (List (Symbol × Count))) (z : List Byte), (∀ l ∈ lines, l ≠ []) →
    ∃ t, hdrParse ((lines.flatMap fun l => hdrPairs l ++ [0x0A]) ++ 0x0A :: z) = .ok (t, z) ∧
      ∀ sym, tableGet t sym = (lines.flatten.reverse.find? fun p => p.1 = sym).map Prod.snd

/-- 44_container_format.md R156: where no line of `IN` is blank the header is malformed, and DECODE faults so. -/
def Obligations.HeaderWithoutBlankLineIsMalformed : Prop :=
  ∀ s : State, s.inp.head? ≠ some 0x0A → ¬ [0x0A, 0x0A] <:+: s.inp →
    ∃ t, exec .decode s = .next t ∧ rspStatus t.rsp = 0x03 ∧ t.ft = tableEmpty Count ∧ t.treeValid = false ∧
      t.inp = [] ∧ t.out = s.out

/-- 44_container_format.md R170: with the invariant, what a successful ENCODE emits on an input that is not empty is a
function of the table and the input alone. -/
def Obligations.EncodeOutputIsAFunction : Prop :=
  ∀ s s' : State, s.Inv → s'.Inv → s.ft = s'.ft → s.inp = s'.inp → s.inp ≠ [] →
    (∀ b ∈ s.inp, (tableGet s.ct b).isSome = true) → (∀ b ∈ s'.inp, (tableGet s'.ct b).isSome = true) →
    ∃ e t t', exec .encode s = .next t ∧ exec .encode s' = .next t' ∧ t.out = s.out ++ e ∧ t'.out = s'.out ++ e

/-! ## DECODE -/

/-- 44_container_format.md R165, 60_exceptions.md R191, R196: DECODE's outcomes in the order they are tested, each with the
whole state it leaves. (The record is the model's own field, assumption log 3.) -/
def Obligations.DecodeOutcomesInOrder : Prop :=
  ∀ s : State,
    match hdrParse s.inp with
    | .error _ =>
      exec .decode s =
        .next
          { s with
            ft := tableEmpty Count, pq := [], node := [], nodeCount := 0, root := none, treeValid := false
            ct := tableEmpty Code, inp := [], rsp := responseWord 0x03 0 0 0, faultLog := s.faultLog ++ [0x03] }
    | .ok (ft, rest) =>
      if symbols ft = [] then
        exec .decode s =
          .next
            { s with
              ft := tableEmpty Count, pq := [], node := [], nodeCount := 0, root := none, treeValid := false
              ct := tableEmpty Code, inp := [], rsp := responseWord 0x01 0 0 0, faultLog := s.faultLog ++ [0x01] }
      else
        ∃ node root, builtFrom ft = some (node, root) ∧
          let b : State :=
            { s with
              ft := ft, pq := [], node := node, nodeCount := node.length, root := some root, treeValid := true
              ct := tableEmpty Code, inp := [] }
          match rest.getLast? with
          | none =>
            exec .decode s =
              .next { b with rsp := responseWord 0x05 0 0 0, faultLog := s.faultLog ++ [0x05] }
          | some pad =>
            if pad > 7 then
              exec .decode s =
                .next { b with rsp := responseWord 0x04 pad 0 0, faultLog := s.faultLog ++ [0x04] }
            else
              match walkBits node root root (validBits rest.dropLast pad) with
              | (e, none) =>
                exec .decode s = .next { b with out := s.out ++ e, rsp := responseWord 0x00 0 0 0 }
              | (e, some _) =>
                ∃ k draws, exec .decode s =
                  .next
                    { b with
                      out := s.out ++ e.take k, draws := draws, rsp := responseWord 0x05 0 0 0
                      faultLog := s.faultLog ++ [0x05] }

/-- 60_exceptions.md R185, 43_bit_decoder.md R143: any padding byte above 7 faults with it before any bit is decoded. -/
def Obligations.PaddingAboveSevenIsMalformed : Prop :=
  ∀ (s : State) (ft : Table Count) (p : List Byte) (pad : Byte), hdrParse s.inp = .ok (ft, p ++ [pad]) →
    symbols ft ≠ [] → 7 < pad.toNat →
    ∃ t, exec .decode s = .next t ∧ rspStatus t.rsp = 0x04 ∧ rspTie t.rsp = pad ∧ t.out = s.out ∧ t.ft = ft ∧
      t.treeValid = true

/-- 43_bit_decoder.md R145: a file with one symbol decodes that symbol once per valid bit, whatever the bits are, for every
payload and every padding count up to 7. -/
def Obligations.SingleSymbolFileDecodes : Prop :=
  ∀ (s : State) (ft : Table Count) (sym : Symbol) (p : List Byte) (pad : Byte), symbols ft = [sym] →
    hdrParse s.inp = .ok (ft, p ++ [pad]) → pad.toNat ≤ 7 →
    ∃ t, exec .decode s = .next t ∧ rspStatus t.rsp = statusOk ∧ t.ft = ft ∧
      t.out = s.out ++ List.replicate (8 * p.length - pad.toNat) sym

/-- 43_bit_decoder.md R141, R144: over a built tree of two or more symbols, with `ct` its codes, the symbols a walk emits spell
the bits consumed; the walk ends well exactly where they spell all of them, and else what is left is a proper beginning of
a code. -/
def Obligations.WalkSpellsTheBits : Prop :=
  ∀ (ft : Table Count) (node : List Node) (root : NodeIdx) (ct : Table Code) (bits : List Bit),
    builtFrom ft = some (node, root) → 2 ≤ (symbols ft).length → treeCodes node root = .ok ct →
    ∃ e tail, (walkBits node root root bits).1 = e ∧ bits = codeBits ct e ++ tail ∧
      (∀ b ∈ e, (tableGet ct b).isSome = true) ∧
      (tail = [] → (walkBits node root root bits).2 = none) ∧
      (tail ≠ [] → (walkBits node root root bits).2 = some (.raise .truncatedStream) ∧
        ∃ sym c more, tableGet ct sym = some c ∧ c = tail ++ more ∧ more ≠ [])

/-- 44_container_format.md R165: DECODE reads nothing of the earlier table, tree, codes and queue: what it emits, builds and
answers depends on `IN` alone (and on the free choices, where it faults). -/
def Obligations.DecodeForgetsTheOldState : Prop :=
  ∀ s s' : State, s.inp = s'.inp → s.draws = s'.draws →
    ∃ t t' e, exec .decode s = .next t ∧ exec .decode s' = .next t' ∧ t.out = s.out ++ e ∧ t'.out = s'.out ++ e ∧
      t.ft = t'.ft ∧ t.node = t'.node ∧ t.nodeCount = t'.nodeCount ∧ t.root = t'.root ∧ t.treeValid = t'.treeValid ∧
      t.ct = t'.ct ∧ t.pq = t'.pq ∧ t.rsp = t'.rsp

/-! ## Round trip -/

/-- 44_container_format.md R166, 30_encoding.md R80: for every input that is not empty and whose bytes are all in the table,
COMPRESS from any state succeeds, and DECODE of what it emitted, in any other state, succeeds and emits the input. -/
def Obligations.CompressThenDecodeIsIdentity : Prop :=
  ∀ (s : State) (x : List Byte), x ≠ [] → s.inp = x → (∀ b ∈ x, (tableGet s.ft b).isSome = true) →
    ∃ y t, execWhileOk compress s = .next t ∧ rspStatus t.rsp = statusOk ∧ t.out = s.out ++ y ∧ t.inp = [] ∧
      ∀ u : State, u.inp = y →
        ∃ v, exec .decode u = .next v ∧ rspStatus v.rsp = statusOk ∧ v.out = u.out ++ x ∧ v.ft = s.ft

/-- 44_container_format.md R166: the round trip of payload and tree holds for either child order. -/
def Obligations.RoundTripUnderEitherChildOrder : Prop :=
  ∀ (co : ChildOrder) (s u : State) (x : List Byte), x ≠ [] → (∀ b ∈ x, (tableGet s.ft b).isSome = true) →
    u.ft = s.ft →
    ∃ t ct root v p, buildTree co s = .ok t ∧ buildCodes t = .ok ct ∧ payloadPack ct x = (p, none) ∧
      buildTree co u = .ok v ∧ v.root = some root ∧ payloadUnpack v.node root p = (x, none)

/-! ## The whole machine -/

/-- 10_state.md R41, R42: the invariant holds after reset. Its clause that the queue is listed in ascending order is the
model's choice (assumption log 9): R25 gives a collection without positions. -/
def Obligations.InvariantHoldsAtReset : Prop := State.reset.Inv

/-- 10_state.md R41: every step keeps the invariant: a valid tree is what the builder makes of the current table, a code
table with an entry is what `build_codes` makes of the current tree; with it the queue stays within its capacity (R25), and
the response stays one of R181's. The clause that the queue stays listed in ascending order is the model's choice
(assumption log 9) and no rule of the spec: R25 gives a collection without positions. -/
def Obligations.EveryStepKeepsTheInvariant : Prop :=
  ∀ s t : State, s.Inv → step s = .next t → t.Inv

/-- 70_reset_and_hazards.md R222: in every state that meets the invariant every command runs to its end. -/
def Obligations.EveryCommandCompletes : Prop := ∀ (i : Instr) (s : State), s.Inv → goesOn (exec i s)

/-- 70_reset_and_hazards.md R219: what may write the table, the tree and the code table, and what is cleared with them. -/
def Obligations.OnlyTheirCommandsWriteTheTables : Prop :=
  ∀ (i : Instr) (s t : State), exec i s = .next t →
    (t.ft ≠ s.ft → i = .ftClear ∨ (∃ sym c, i = .ftWrite sym c) ∨ i = .decode) ∧
    ((t.node, t.nodeCount, t.root, t.treeValid) ≠ (s.node, s.nodeCount, s.root, s.treeValid) →
      i = .ftClear ∨ (∃ sym c, i = .ftWrite sym c) ∨ i = .buildTree ∨ i = .decode) ∧
    (t.ct ≠ s.ct →
      i = .ftClear ∨ (∃ sym c, i = .ftWrite sym c) ∨ i = .buildTree ∨ i = .buildCodes ∨ i = .decode) ∧
    (i = .ftClear ∨ (∃ sym c, i = .ftWrite sym c) → t.treeValid = false ∧ t.ct = tableEmpty Code) ∧
    (i = .buildTree → rspStatus t.rsp = statusOk → t.ct = tableEmpty Code) ∧
    (i = .decode → t.ct = tableEmpty Code ∧
      (t.treeValid = true → ∃ root, t.root = some root ∧ builtFrom t.ft = some (t.node, root))) ∧
    (i = .buildCodes → buildCodes s = .ok t.ct)

/-- 60_exceptions.md R193: `IN` is empty after ENCODE and DECODE, whether the command ended `OK` or faulted. -/
def Obligations.InputIsEmptyAfterEncodeAndDecode : Prop :=
  ∀ (i : Instr) (s t : State), i = .encode ∨ i = .decode → exec i s = .next t → t.inp = []

/-- 10_state.md R36, 20_memory.md R50, R53: a command only appends to `OUT`, and only ENCODE and DECODE do; no other command
touches `IN`. -/
def Obligations.CommandsOnlyAppendToOut : Prop :=
  ∀ (i : Instr) (s t : State), exec i s = .next t →
    (∃ e, t.out = s.out ++ e) ∧ (i ≠ .encode → i ≠ .decode → t.out = s.out ∧ t.inp = s.inp)

/-- 30_encoding.md R72, 60_exceptions.md R181: every command's response has one of the nine status values and zero bits
[95:72]. -/
def Obligations.ResponsesAreWellFormed : Prop :=
  ∀ (i : Instr) (s t : State), exec i s = .next t → rspStatus t.rsp ∈ statusValues ∧ rspZero t.rsp = 0

/-- 60_exceptions.md R194: a fault's response is `(code, info, 0, 0)`, and the record the model keeps gains exactly the
non-zero status values. (The record is the model's own field, assumption log 3.) -/
def Obligations.FaultsAreReportedAndRecorded : Prop :=
  ∀ (i : Instr) (s t : State), exec i s = .next t →
    (rspStatus t.rsp = statusOk → t.faultLog = s.faultLog) ∧
    (rspStatus t.rsp ≠ statusOk → rspVal t.rsp = 0 ∧ rspPrio t.rsp = 0 ∧
      t.faultLog = s.faultLog ++ [rspStatus t.rsp])

/-- 70_reset_and_hazards.md R220: a successful BUILD_TREE, and every DECODE, leaves the queue empty. -/
def Obligations.BuildersEmptyTheQueue : Prop :=
  ∀ s t : State,
    (exec .buildTree s = .next t → rspStatus t.rsp = statusOk → t.pq = []) ∧
      (exec .decode s = .next t → t.pq = [])

/-- 10_state.md R37: no command reads the response register, and every command overwrites it. -/
def Obligations.ResponseRegisterIsNeverRead : Prop :=
  ∀ (i : Instr) (s : State) (w : Response), exec i { s with rsp := w } = exec i s

/-- 10_state.md R43: the free choices are drawn by PQ_POP, and by ENCODE and DECODE where they fault, alone: the tree builder
and every command that ends `OK` but PQ_POP draw nothing. (The count of draws is the model's own field, assumption log 4.) -/
def Obligations.FreeChoicesAreDrawnOnlyWhereOpen : Prop :=
  ∀ (i : Instr) (s t : State), exec i s = .next t → t.draws ≠ s.draws →
    i = .pqPop ∨ ((i = .encode ∨ i = .decode) ∧ rspStatus t.rsp ≠ statusOk)
end

