-- ==== Sys2Proof/Laws/Queue.lean ====
section
/-! SUPPORT. The laws of the priority queue (spec/40_priority_queue.md R91 to R97): a push adds one occurrence, a pop takes a
minimal entry away, both keep the canonical form, and with pairwise distinct ties the pop draws nothing (R100). -/

namespace Sys2Proof.Machine

/-! ## The key order -/

theorem keyLt_iff (x y : Entry) : keyLt x y = true ↔ x.prio < y.prio ∨ (x.prio = y.prio ∧ x.tie < y.tie) := by
  simp [keyLt]

theorem keyEq_iff (x y : Entry) : keyEq x y = true ↔ x.prio = y.prio ∧ x.tie = y.tie := by simp [keyEq]

theorem keyLt_irrefl (x : Entry) : keyLt x x = false := by simp [keyLt]

theorem keyLt_trans {x y z : Entry} (h1 : keyLt x y = true) (h2 : keyLt y z = true) : keyLt x z = true := by
  simp only [keyLt_iff, BitVec.lt_def, ← BitVec.toNat_inj] at *; omega

/-- Two keys are ordered one way, the other, or equal. -/
theorem keyLt_or_keyEq (x y : Entry) : keyLt x y = true ∨ keyEq x y = true ∨ keyLt y x = true := by
  simp only [keyLt_iff, keyEq_iff, BitVec.lt_def, ← BitVec.toNat_inj]; omega

theorem keyLt_of_keyEq_left {x y z : Entry} (h : keyEq x y = true) : keyLt x z = keyLt y z := by
  obtain ⟨h1, h2⟩ := (keyEq_iff x y).1 h
  simp [keyLt, h1, h2]

theorem keyLt_of_keyEq_right {x y z : Entry} (h : keyEq x y = true) : keyLt z x = keyLt z y := by
  obtain ⟨h1, h2⟩ := (keyEq_iff x y).1 h
  simp [keyLt, h1, h2]

theorem entryLe_total (x y : Entry) : entryLe x y = true ∨ entryLe y x = true := by
  simp only [entryLe, Bool.or_eq_true, Bool.and_eq_true, keyLt_iff, keyEq_iff, decide_eq_true_eq, BitVec.lt_def,
    BitVec.le_def, ← BitVec.toNat_inj]
  omega

theorem entryLe_trans {x y z : Entry} (h1 : entryLe x y = true) (h2 : entryLe y z = true) : entryLe x z = true := by
  simp only [entryLe, Bool.or_eq_true, Bool.and_eq_true, keyLt_iff, keyEq_iff, decide_eq_true_eq, BitVec.lt_def,
    BitVec.le_def, ← BitVec.toNat_inj] at *
  omega

/-! ## Push -/

/-- A push adds one occurrence of the entry (40_priority_queue.md R92). -/
theorem pqInsert_perm (e : Entry) (pq : List Entry) : (pqInsert e pq).Perm (e :: pq) := by
  induction pq with
  | nil => exact List.Perm.refl _
  | cons x xs ih =>
    simp only [pqInsert]
    split
    · exact List.Perm.refl _
    · exact (ih.cons x).trans (List.Perm.swap _ _ _)

theorem pqInsert_length (e : Entry) (pq : List Entry) : (pqInsert e pq).length = pq.length + 1 :=
  (pqInsert_perm e pq).length_eq

theorem mem_pqInsert {e x : Entry} {pq : List Entry} : x ∈ pqInsert e pq ↔ x = e ∨ x ∈ pq := by
  rw [(pqInsert_perm e pq).mem_iff]; exact List.mem_cons

theorem pqInsert_wf {pq : List Entry} (e : Entry) (h : queueWf pq) : queueWf (pqInsert e pq) := by
  induction pq with
  | nil => exact List.pairwise_singleton _ _
  | cons x xs ih =>
    obtain ⟨hx, hxs⟩ := List.pairwise_cons.1 h
    simp only [pqInsert]
    split
    · rename_i hle
      exact List.pairwise_cons.2 ⟨fun y hy => by
        rcases List.mem_cons.1 hy with rfl | hy
        · exact hle
        · exact entryLe_trans hle (hx y hy), h⟩
    · rename_i hle
      refine List.pairwise_cons.2 ⟨fun y hy => ?_, ih hxs⟩
      rcases mem_pqInsert.1 hy with rfl | hy
      · exact (entryLe_total y x).resolve_left hle
      · exact hx y hy

/-- `pq_build_from` holds exactly the items (40_priority_queue.md R95). -/
theorem pqBuildFrom_perm (items : List Entry) : (pqBuildFrom items).Perm items := by
  induction items with
  | nil => exact List.Perm.refl _
  | cons x xs ih => exact (pqInsert_perm x _).trans (ih.cons x)

theorem pqBuildFrom_wf (items : List Entry) : queueWf (pqBuildFrom items) := by
  induction items with
  | nil => exact List.Pairwise.nil
  | cons x xs ih => exact pqInsert_wf x ih

/-- The canonical form makes equal collections equal lists (10_state.md R25). -/
theorem queue_ext {p q : List Entry} (hp : queueWf p) (hq : queueWf q) (h : p.Perm q) : p = q := by
  refine List.Perm.eq_of_pairwise ?_ hp hq h
  rintro ⟨p1, t1, v1⟩ ⟨p2, t2, v2⟩ _ _ h1 h2
  simp only [entryLe, Bool.or_eq_true, Bool.and_eq_true, keyLt_iff, keyEq_iff, decide_eq_true_eq, BitVec.lt_def,
    BitVec.le_def, ← BitVec.toNat_inj, Entry.mk.injEq] at *
  omega

/-! ## Pop -/

theorem leastKey_spec (x : Entry) (xs : List Entry) : isMinimal (leastKey x xs) (x :: xs) := by
  induction xs generalizing x with
  | nil => simp [leastKey, isMinimal, keyLt_irrefl]
  | cons y ys ih =>
    simp only [leastKey]
    obtain ⟨hm, hmin⟩ := ih (if keyLt y x then y else x)
    set m := leastKey (if keyLt y x then y else x) ys
    have hz := hmin (if keyLt y x then y else x) (by simp)
    refine ⟨?_, ?_⟩
    · rcases List.mem_cons.1 hm with h | h
      · rw [h]; split <;> simp
      · simp [h]
    · intro e he
      rcases List.mem_cons.1 he with rfl | he
      · split at hz
        · rename_i hlt
          by_contra hc
          have := keyLt_trans hlt (by simpa using hc)
          simp [this] at hz
        · exact hz
      · rcases List.mem_cons.1 he with rfl | he
        · split at hz
          · exact hz
          · rename_i hlt
            rcases keyLt_or_keyEq e x with h | h | h
            · exact absurd h hlt
            · rw [keyLt_of_keyEq_left h]; exact hz
            · by_contra hc
              have := keyLt_trans h (by simpa using hc)
              simp [this] at hz
        · exact hmin e (by simp [he])

theorem mem_minimalEntries {m : Entry} {pq : List Entry} : m ∈ minimalEntries pq ↔ isMinimal m pq := by
  cases pq with
  | nil => simp [minimalEntries, isMinimal]
  | cons x xs =>
    obtain ⟨hl, hmin⟩ := leastKey_spec x xs
    simp only [minimalEntries, List.mem_filter]
    constructor
    · rintro ⟨hm, hk⟩
      exact ⟨hm, fun e he => by rw [← keyLt_of_keyEq_right hk]; exact hmin e he⟩
    · rintro ⟨hm, hmin'⟩
      refine ⟨hm, ?_⟩
      rcases keyLt_or_keyEq (leastKey x xs) m with h | h | h
      · simp [hmin' _ hl] at h
      · exact h
      · simp [hmin _ hm] at h

theorem minimalEntries_eq_nil {pq : List Entry} : minimalEntries pq = [] ↔ pq = [] := by
  cases pq with
  | nil => simp [minimalEntries]
  | cons x xs =>
    refine ⟨fun h => ?_, fun h => by simp at h⟩
    have := mem_minimalEntries.2 (leastKey_spec x xs)
    simp [h] at this

theorem chooseFrom_mem {α : Type} (x : α) (xs : List α) (k : Nat) : chooseFrom x xs k ∈ x :: xs :=
  List.getElem_mem _

theorem pqPop_eq_none {pq : List Entry} {d : Nat} : pqPop pq d = none ↔ pq = [] := by
  rw [← minimalEntries_eq_nil]
  simp only [pqPop]
  split <;> simp_all

/-- What a pop can do (40_priority_queue.md R93, R97): a minimal entry leaves, the rest stays. -/
theorem pqPop_spec {pq : List Entry} {d : Nat} {p : Popped} (h : pqPop pq d = some p) :
    isMinimal p.entry pq ∧ p.pq = pq.erase p.entry := by
  simp only [pqPop] at h
  split at h
  · simp at h
  · rename_i m hm
    obtain rfl := Option.some.inj h
    exact ⟨mem_minimalEntries.1 (by simp [hm]), rfl⟩
  · rename_i m m' ms hm
    obtain rfl := Option.some.inj h
    exact ⟨mem_minimalEntries.1 (by rw [hm]; exact chooseFrom_mem _ _ _), rfl⟩

theorem pqPop_perm {pq : List Entry} {d : Nat} {p : Popped} (h : pqPop pq d = some p) :
    pq.Perm (p.entry :: p.pq) := by
  obtain ⟨h1, h2⟩ := pqPop_spec h
  rw [h2]; exact List.perm_cons_erase h1.1

theorem pqPop_wf {pq : List Entry} {d : Nat} {p : Popped} (h : pqPop pq d = some p) (hw : queueWf pq) :
    queueWf p.pq := by
  rw [(pqPop_spec h).2]; exact hw.sublist List.erase_sublist

theorem pqPop_length {pq : List Entry} {d : Nat} {p : Popped} (h : pqPop pq d = some p) :
    pq.length = p.pq.length + 1 := by simpa using (pqPop_perm h).length_eq

/-- With pairwise distinct ties the minimal entry is unique, so a pop draws nothing (40_priority_queue.md R100). -/
theorem pqPop_of_nodup {pq : List Entry} {m : Entry} (hm : isMinimal m pq) (hn : (pq.map Entry.tie).Nodup) (d : Nat) :
    pqPop pq d = some ⟨m, pq.erase m, d⟩ := by
  have uniq : ∀ x ∈ minimalEntries pq, x = m := by
    intro x hx
    obtain ⟨hxm, hxmin⟩ := mem_minimalEntries.1 hx
    rcases keyLt_or_keyEq x m with h | h | h
    · simp [hm.2 x hxm] at h
    · exact List.inj_on_of_nodup_map hn hxm hm.1 ((keyEq_iff x m).1 h).2
    · simp [hxmin m hm.1] at h
  have hnod : (minimalEntries pq).Nodup := by
    have : pq.Nodup := List.Nodup.of_map _ hn
    cases pq with
    | nil => simp [minimalEntries]
    | cons x xs => exact this.filter _
  have hmem := mem_minimalEntries.2 hm
  have : minimalEntries pq = [m] := by
    match hl : minimalEntries pq with
    | [] => simp [hl] at hmem
    | [x] => simp [uniq x (by simp [hl])]
    | x :: y :: zs =>
      rw [hl] at hnod
      have hx := uniq x (by simp [hl])
      have hy := uniq y (by simp [hl])
      simp [hx, hy] at hnod
  simp [pqPop, this]

/-- With pairwise distinct ties a pop of a queue that is not empty finds its one minimal entry. -/
theorem pqPop_nodup_spec {pq : List Entry} (hne : pq ≠ []) (hn : (pq.map Entry.tie).Nodup) :
    ∃ m, isMinimal m pq ∧ ∀ d, pqPop pq d = some ⟨m, pq.erase m, d⟩ := by
  cases pq with
  | nil => exact absurd rfl hne
  | cons x xs => exact ⟨_, leastKey_spec x xs, pqPop_of_nodup (leastKey_spec x xs) hn⟩

end Sys2Proof.Machine
end

