-- ==== Sys2Proof/Laws/Table.lean ====
section
/-! SUPPORT. The laws of tables: a read after a write, extensionality, and what the ascending list of present entries
(spec/10_state.md R24) holds. -/

namespace Sys2Proof.Machine

variable {α : Type}

@[simp] theorem tableGet_empty (s : Symbol) : tableGet (tableEmpty α) s = none := by
  simp [tableGet, tableEmpty]

theorem tableGet_set (t : Table α) (s r : Symbol) (v : α) :
    tableGet (tableSet t s v) r = if r = s then some v else tableGet t r := by
  simp only [tableGet, tableSet, Vector.getElem_set]
  by_cases h : r = s
  · simp [h]
  · have : s.toNat ≠ r.toNat := fun e => h (BitVec.eq_of_toNat_eq e.symm)
    simp [h, this]

@[simp] theorem tableGet_set_same (t : Table α) (s : Symbol) (v : α) : tableGet (tableSet t s v) s = some v := by
  simp [tableGet_set]

theorem tableGet_set_other (t : Table α) {s r : Symbol} (v : α) (h : r ≠ s) :
    tableGet (tableSet t s v) r = tableGet t r := by
  simp [tableGet_set, h]

theorem table_ext {t u : Table α} (h : ∀ s, tableGet t s = tableGet u s) : t = u := by
  ext i hi : 1
  have := h (BitVec.ofNat 8 i)
  simpa [tableGet, Nat.mod_eq_of_lt hi] using this

theorem mem_pairsFrom (os : List (Option α)) (k : Nat) (hk : k + os.length ≤ 256) (s : Symbol) (v : α) :
    (s, v) ∈ pairsFrom k os ↔ k ≤ s.toNat ∧ os[s.toNat - k]? = some (some v) := by
  induction os generalizing k with
  | nil => simp [pairsFrom]
  | cons o os ih =>
    simp only [List.length_cons] at hk
    have hlt : k < 256 := by omega
    have key : ∀ b : Bool, (b = true → k ≤ s.toNat) →
        (k + 1 ≤ s.toNat ∧ os[s.toNat - (k + 1)]? = some (some v) ↔
          k < s.toNat ∧ (o :: os)[s.toNat - k]? = some (some v)) := by
      intro _ _
      constructor <;> rintro ⟨h1, h2⟩ <;> refine ⟨by omega, ?_⟩
      · rw [show s.toNat - k = (s.toNat - (k + 1)) + 1 by omega]; simpa using h2
      · rw [show s.toNat - k = (s.toNat - (k + 1)) + 1 by omega] at h2; simpa using h2
    have split : (k ≤ s.toNat ∧ (o :: os)[s.toNat - k]? = some (some v)) ↔
        (s.toNat = k ∧ o = some v) ∨ (k < s.toNat ∧ (o :: os)[s.toNat - k]? = some (some v)) := by
      constructor
      · rintro ⟨h1, h2⟩
        rcases Nat.eq_or_lt_of_le h1 with h | h
        · left; refine ⟨h.symm, ?_⟩; rw [← h] at h2; simpa using h2
        · right; exact ⟨h, h2⟩
      · rintro (⟨h1, h2⟩ | ⟨h1, h2⟩)
        · refine ⟨by omega, ?_⟩; rw [h1]; simpa using h2
        · exact ⟨by omega, h2⟩
    rw [split]
    cases o with
    | none =>
      simp only [pairsFrom, ih (k + 1) (by omega), key false (by simp)]
      simp
    | some w =>
      simp only [pairsFrom, List.mem_cons, Prod.mk.injEq, ih (k + 1) (by omega), key false (by simp)]
      have : s = BitVec.ofNat 8 k ↔ s.toNat = k := by
        constructor
        · rintro rfl; simp [Nat.mod_eq_of_lt hlt]
        · intro h; apply BitVec.eq_of_toNat_eq; simp [Nat.mod_eq_of_lt hlt, h]
      simp [this, eq_comm]

/-- The pairs of a table are exactly its present entries. -/
theorem mem_tablePairs (t : Table α) (s : Symbol) (v : α) : (s, v) ∈ tablePairs t ↔ tableGet t s = some v := by
  have := s.isLt
  rw [tablePairs, mem_pairsFrom _ _ (by simp)]
  simp [tableGet, this]

theorem pairsFrom_sorted (os : List (Option α)) (k : Nat) (hk : k + os.length ≤ 256) :
    (pairsFrom k os).Pairwise (fun p q => p.1.toNat < q.1.toNat) ∧ ∀ p ∈ pairsFrom k os, k ≤ p.1.toNat := by
  induction os generalizing k with
  | nil => simp [pairsFrom]
  | cons o os ih =>
    simp only [List.length_cons] at hk
    obtain ⟨h1, h2⟩ := ih (k + 1) (by omega)
    have hlt : k < 256 := by omega
    cases o with
    | none => exact ⟨h1, fun p hp => by have := h2 p hp; omega⟩
    | some v =>
      refine ⟨List.pairwise_cons.2 ⟨fun q hq => ?_, h1⟩, fun p hp => ?_⟩
      · have := h2 q hq; simp [Nat.mod_eq_of_lt hlt]; omega
      · rcases List.mem_cons.1 hp with rfl | hp
        · simp [Nat.mod_eq_of_lt hlt]
        · have := h2 p hp; omega

/-- The pairs of a table ascend strictly by symbol. -/
theorem tablePairs_sorted (t : Table α) : (tablePairs t).Pairwise fun p q => p.1.toNat < q.1.toNat :=
  (pairsFrom_sorted _ _ (by simp)).1

theorem mem_symbols (t : Table α) (s : Symbol) : s ∈ symbols t ↔ (tableGet t s).isSome = true := by
  simp only [symbols, List.mem_map, Prod.exists, exists_and_right, exists_eq_right, mem_tablePairs]
  simp [Option.isSome_iff_exists]

theorem symbols_nodup (t : Table α) : (symbols t).Nodup := by
  refine List.pairwise_map.2 ((tablePairs_sorted t).imp ?_)
  intro a b h e
  rw [e] at h; omega

theorem tablePairs_length_le (t : Table α) : (tablePairs t).length ≤ 256 := by
  have aux : ∀ (os : List (Option α)) k, (pairsFrom k os).length ≤ os.length := by
    intro os
    induction os with
    | nil => simp [pairsFrom]
    | cons o os ih =>
      intro k
      have := ih (k + 1)
      cases o <;> simp [pairsFrom] <;> omega
  simpa [tablePairs] using aux t.toList 0

theorem tablePairs_eq_nil (t : Table α) : tablePairs t = [] ↔ t = tableEmpty α := by
  constructor
  · intro h
    refine table_ext fun s => ?_
    rw [tableGet_empty]
    cases hs : tableGet t s with
    | none => rfl
    | some v => have := (mem_tablePairs t s v).2 hs; simp [h] at this
  · rintro rfl
    refine List.eq_nil_iff_forall_not_mem.2 fun p hp => ?_
    have := (mem_tablePairs (tableEmpty α) p.1 p.2).1 hp
    simp at this

/-- A table is determined by its present entries. -/
theorem tablePairs_inj {t u : Table α} (h : tablePairs t = tablePairs u) : t = u := by
  refine table_ext fun s => Option.ext fun v => ?_
  rw [← mem_tablePairs, h, mem_tablePairs]

theorem symbols_length (t : Table α) : (symbols t).length = (tablePairs t).length := by simp [symbols]

end Sys2Proof.Machine
end

