-- ==== Sys2Proof/Laws/Tree.lean ====
section
/-! SUPPORT. The laws of the tree builder (spec/41_tree_build.md R113 to R123): what one pass of the merge loop does, the
invariant it keeps, and that `build_tree` on a table that is not empty always ends with a complete tree, whatever the free
choices are (40_priority_queue.md R100). -/

namespace Sys2Proof.Machine

/-! ## Trees in the arena -/

theorem nodeAt_append {node : List Node} {i : NodeIdx} {n : Node} (h : nodeAt node i = some n) (m : List Node) :
    nodeAt (node ++ m) i = some n := by
  simp only [nodeAt] at *
  rw [List.getElem?_append_left]
  · exact h
  · exact (List.getElem?_eq_some_iff.1 h).1

theorem IsTree.append {node : List Node} {i : NodeIdx} {t : HTree} (h : IsTree node i t) (m : List Node) :
    IsTree (node ++ m) i t := by
  induction h with
  | leaf i s f y h => exact .leaf i s f y (nodeAt_append h m)
  | internal i l r f y tl tr h _ _ ihl ihr => exact .internal i l r f y tl tr (nodeAt_append h m) ihl ihr

theorem IsTree.nodeAt {node : List Node} {i : NodeIdx} {t : HTree} (h : IsTree node i t) :
    ∃ n, nodeAt node i = some n ∧ nodeFreq n = t.freq := by
  cases h with
  | leaf _ s f y h => exact ⟨_, h, rfl⟩
  | internal _ l r f y tl tr h _ _ => exact ⟨_, h, rfl⟩

/-- The symbol set of a node is the set of the leaves beneath it (10_state.md R28). -/
theorem IsTree.syms {node : List Node} (ha : arenaOk node) {i : NodeIdx} {t : HTree} (h : IsTree node i t) :
    ∀ n, Machine.nodeAt node i = some n → ∀ s : Symbol,
      (nodeSyms n).getLsbD s.toNat = true ↔ s ∈ t.leaves.map Prod.fst := by
  induction h with
  | leaf i s f y h =>
    intro n hn r
    obtain rfl : Node.leaf s f y = n := Option.some.inj (h.symm.trans hn)
    obtain rfl := ha.1 _ _ _ _ h
    have := r.isLt
    simp only [nodeSyms, symsOf, HTree.leaves, List.map_cons, List.map_nil, List.mem_singleton]
    rw [BitVec.getLsbD_twoPow, ← BitVec.toNat_inj]
    simp; omega
  | internal i l r f y tl tr h hl hr ihl ihr =>
    intro n hn s
    obtain rfl : Node.internal l r f y = n := Option.some.inj (h.symm.trans hn)
    obtain ⟨_, _, nl, nr, hnl, hnr, _, rfl, _⟩ := ha.2 _ _ _ _ _ h
    rw [show nodeSyms (.internal l r f (nodeSyms nl ||| nodeSyms nr)) = nodeSyms nl ||| nodeSyms nr from rfl]
    simp only [HTree.leaves, List.map_append, List.mem_append, BitVec.getLsbD_or, Bool.or_eq_true]
    rw [ihl nl hnl, ihr nr hnr]

/-- The exact sum of a list of frequencies. -/
def freqSum (ls : List (Symbol × Prio)) : Nat := (ls.map fun p => p.2.toNat).sum

theorem freqSum_append (a b : List (Symbol × Prio)) : freqSum (a ++ b) = freqSum a + freqSum b := by
  simp [freqSum]

theorem freqSum_perm {a b : List (Symbol × Prio)} (h : a.Perm b) : freqSum a = freqSum b :=
  (h.map _).sum_eq

/-- The leaves that step 2 makes (41_tree_build.md R115). -/
def leafPairs (ps : List (Symbol × Count)) : List (Symbol × Prio) := ps.map fun p => (p.1, prioOfCount p.2)

theorem prioOfCount_toNat (c : Count) : (prioOfCount c).toNat = c.toNat := by
  have := c.isLt
  simp [prioOfCount]; omega

/-- No sum the builder forms wraps (41_tree_build.md R121). -/
theorem freqSum_leafPairs_lt (ps : List (Symbol × Count)) (h : ps.length ≤ 256) : freqSum (leafPairs ps) < 2 ^ 72 := by
  have aux : ∀ qs : List (Symbol × Count), freqSum (leafPairs qs) ≤ qs.length * (2 ^ 64 - 1) := by
    intro qs
    induction qs with
    | nil => simp [freqSum, leafPairs]
    | cons q qs ih =>
      have := q.2.isLt
      simp only [freqSum, leafPairs, List.map_cons, List.sum_cons, List.length_cons, prioOfCount_toNat] at *
      omega
  have := aux ps
  have : ps.length * (2 ^ 64 - 1) ≤ 256 * (2 ^ 64 - 1) := Nat.mul_le_mul_right _ h
  omega

/-! ## The invariant of the merge loop -/

/-- What holds at every point of the merge loop for a table of pairs `ps`: `T` gives each queue entry the tree it stands
for. -/
structure BuildOk (ps : List (Symbol × Count)) (pq : List Entry) (node : List Node) (T : Entry → HTree) : Prop where
  small : ps.length ≤ 256
  syms : (ps.map Prod.fst).Nodup
  wf : queueWf pq
  ties : (pq.map Entry.tie).Nodup
  count : pq.length + node.length = 2 * ps.length
  pos : pq ≠ []
  leaves : ∃ tail, node = ps.map leafOf ++ tail ∧ ∀ n ∈ tail, ∃ l r f y, n = Node.internal l r f y
  isTree : ∀ e ∈ pq, IsTree node (indexOfVal e.val) (T e)
  freq : ∀ e ∈ pq, (T e).freq = e.prio
  sum : ∀ e ∈ pq, e.prio.toNat = freqSum (T e).leaves
  perm : (pq.flatMap fun e => (T e).leaves).Perm (leafPairs ps)
  last : ∃ e ∈ pq, (indexOfVal e.val).toNat + 1 = node.length
  own : (pq.map (fun e => (indexOfVal e.val).toNat) ++ node.flatMap fun n => (nodeChildren n).map BitVec.toNat).Perm
    (List.range node.length)
  arena : arenaOk node

theorem indexOfVal_valOfIndex {k : Nat} (h : k < 512) : (indexOfVal (valOfIndex k)).toNat = k := by
  simp [indexOfVal, valOfIndex]; omega

theorem nodeAt_last (node : List Node) (n : Node) (h : node.length < 512) :
    nodeAt (node ++ [n]) (indexOfVal (valOfIndex node.length)) = some n := by
  simp [nodeAt, indexOfVal_valOfIndex h]

theorem flatMap_update {e' : Entry} {t' : HTree} {T : Entry → HTree} {rest : List Entry} (h : e' ∉ rest) :
    (rest.flatMap fun e => (Function.update T e' t' e).leaves) = rest.flatMap fun e => (T e).leaves := by
  induction rest with
  | nil => rfl
  | cons x xs ih =>
    simp only [List.mem_cons, not_or] at h
    simp [ih h.2, Function.update_of_ne (Ne.symm h.1)]

/-- The two payloads of a merge, in either child order, are those of the two popped entries. -/
theorem childVals_cases (co : ChildOrder) (a b : Entry) :
    ∃ x y : Entry, (x = a ∧ y = b ∨ x = b ∧ y = a) ∧ childVals co a b = (x.val, y.val) := by
  cases co
  · exact ⟨b, a, Or.inr ⟨rfl, rfl⟩, rfl⟩
  · exact ⟨a, b, Or.inl ⟨rfl, rfl⟩, rfl⟩

theorem arenaOk_append {node : List Node} (ha : arenaOk node) {l r : NodeIdx} {nl nr : Node} {f : Prio}
    (hl : nodeAt node l = some nl) (hr : nodeAt node r = some nr)
    (hf : f.toNat = (nodeFreq nl).toNat + (nodeFreq nr).toNat) (hd : nodeSyms nl &&& nodeSyms nr = 0) :
    arenaOk (node ++ [.internal l r f (nodeSyms nl ||| nodeSyms nr)]) := by
  have hlt : ∀ {i : NodeIdx} {n}, nodeAt node i = some n → i.toNat < node.length := fun h =>
    (List.getElem?_eq_some_iff.1 h).1
  refine ⟨fun i s g y h => ?_, fun i l' r' g y h => ?_⟩
  · rcases Nat.lt_or_ge i node.length with hi | hi
    · rw [List.getElem?_append_left hi] at h; exact ha.1 i s g y h
    · rw [List.getElem?_append_right hi] at h
      cases hk : i - node.length <;> simp [hk] at h
  · rcases Nat.lt_or_ge i node.length with hi | hi
    · rw [List.getElem?_append_left hi] at h
      obtain ⟨h1, h2, ml, mr, h3, h4, h5⟩ := ha.2 i l' r' g y h
      exact ⟨h1, h2, ml, mr, nodeAt_append h3 _, nodeAt_append h4 _, h5⟩
    · rw [List.getElem?_append_right hi] at h
      cases hk : i - node.length with
      | succ k => simp [hk] at h
      | zero =>
        simp only [hk, List.getElem?_cons_zero, Option.some.injEq, Node.internal.injEq] at h
        obtain ⟨rfl, rfl, rfl, rfl⟩ := h
        have := hlt hl
        have := hlt hr
        exact ⟨by omega, by omega, nl, nr, nodeAt_append hl _, nodeAt_append hr _, hf, rfl, hd⟩

theorem isMinimal_perm {m : Entry} {p q : List Entry} (h : p.Perm q) : isMinimal m p ↔ isMinimal m q := by
  simp [isMinimal, h.mem_iff]

/-- One pass of the merge loop (41_tree_build.md R113 step 3, R116): it never stops, it draws nothing, it is the merge on
collections, and it keeps the invariant. -/
theorem mergeOnce_ok (co : ChildOrder) {ps : List (Symbol × Count)} {pq : List Entry} {node : List Node}
    {T : Entry → HTree} (h : BuildOk ps pq node T) (h1 : 1 < pq.length) :
    ∃ pq' node' T', (∀ d, mergeOnce co ⟨pq, node, d⟩ = .ok ⟨pq', node', d⟩) ∧ BuildOk ps pq' node' T' ∧
      pq'.length + 1 = pq.length ∧ ∃ pq'', Merges co (pq, node) (pq'', node') ∧ pq'.Perm pq'' := by
  obtain ⟨a, ha, hpa⟩ := pqPop_nodup_spec h.pos h.ties
  have hpermA : pq.Perm (a :: pq.erase a) := List.perm_cons_erase ha.1
  have htiesA : ((a :: pq.erase a).map Entry.tie).Nodup := ((hpermA.map _).nodup_iff).1 h.ties
  have hlenA : pq.length = (pq.erase a).length + 1 := by simpa using hpermA.length_eq
  obtain ⟨b, hb, hpb⟩ := pqPop_nodup_spec (pq := pq.erase a)
    (by intro e; simp [e] at hlenA; omega) (List.nodup_cons.1 htiesA).2
  set rest := (pq.erase a).erase b with hrest
  have hpermB : (pq.erase a).Perm (b :: rest) := List.perm_cons_erase hb.1
  have hperm : pq.Perm (a :: b :: rest) := hpermA.trans (hpermB.cons a)
  have hlenB : (pq.erase a).length = rest.length + 1 := by simpa using hpermB.length_eq
  have hties : ((a :: b :: rest).map Entry.tie).Nodup := ((hperm.map _).nodup_iff).1 h.ties
  have hbpq : b ∈ pq := hperm.mem_iff.2 (by simp)
  have hrestpq : ∀ e ∈ rest, e ∈ pq := fun e he => hperm.mem_iff.2 (by simp [he])
  have hcount := h.count
  have hsmall := h.small
  have hnode : node.length < 511 := by omega
  -- the merged entry, its tree, and why it is new
  let e' : Entry := ⟨a.prio + b.prio, minTie a.tie b.tie, valOfIndex node.length⟩
  have hminTie : minTie a.tie b.tie = a.tie ∨ minTie a.tie b.tie = b.tie := by
    unfold minTie; split <;> simp
  simp only [List.map_cons, List.nodup_cons, List.mem_cons, not_or, List.mem_map, not_exists, not_and] at hties
  obtain ⟨⟨hab, har⟩, hbr, hrn⟩ := hties
  have hnew : ∀ e ∈ rest, e.tie ≠ e'.tie := by
    intro e he
    rcases hminTie with hm | hm <;> simp only [e', hm]
    · exact har e he
    · exact hbr e he
  have hnot : e' ∉ rest := fun hm => hnew e' hm rfl
  -- leaves and sums
  have hall : ((T a).leaves ++ ((T b).leaves ++ rest.flatMap fun e => (T e).leaves)).Perm (leafPairs ps) := by
    have := (hperm.flatMap_right fun e => (T e).leaves).symm.trans h.perm
    simpa using this
  have hsumA := h.sum a ha.1
  have hsumB := h.sum b hbpq
  have hbound := freqSum_leafPairs_lt ps h.small
  have htot := freqSum_perm hall
  simp only [freqSum_append] at htot
  have hadd : (a.prio + b.prio).toNat = a.prio.toNat + b.prio.toNat := by
    rw [BitVec.toNat_add]; omega
  -- the child order
  obtain ⟨x, y, hxy, hcv⟩ := childVals_cases co a b
  have hx : x ∈ pq := by rcases hxy with ⟨rfl, rfl⟩ | ⟨rfl, rfl⟩ <;> [exact ha.1; exact hbpq]
  have hy : y ∈ pq := by rcases hxy with ⟨rfl, rfl⟩ | ⟨rfl, rfl⟩ <;> [exact hbpq; exact ha.1]
  have hpxy : ((T x).leaves ++ (T y).leaves).Perm ((T a).leaves ++ (T b).leaves) := by
    rcases hxy with ⟨rfl, rfl⟩ | ⟨rfl, rfl⟩
    · exact List.Perm.refl _
    · exact List.perm_append_comm
  have hsumxy : x.prio.toNat + y.prio.toNat = a.prio.toNat + b.prio.toNat := by
    rcases hxy with ⟨rfl, rfl⟩ | ⟨rfl, rfl⟩ <;> omega
  obtain ⟨nl, hnl, hfl⟩ := (h.isTree x hx).nodeAt
  obtain ⟨nr, hnr, hfr⟩ := (h.isTree y hy).nodeAt
  rw [h.freq x hx] at hfl
  rw [h.freq y hy] at hfr
  have hdisj : nodeSyms nl &&& nodeSyms nr = 0 := by
    have hn : (((T x).leaves ++ (T y).leaves).map Prod.fst).Nodup := by
      have h1 : ((leafPairs ps).map Prod.fst).Nodup := by simpa [leafPairs, Function.comp_def] using h.syms
      have h2 := ((hall.map Prod.fst).nodup_iff).2 h1
      rw [← List.append_assoc, List.map_append] at h2
      exact ((hpxy.map Prod.fst).nodup_iff).2 (List.nodup_append.1 h2).1
    rw [List.map_append] at hn
    have hdis := (List.nodup_append.1 hn).2.2
    refine BitVec.eq_of_getLsbD_eq fun k hk => ?_
    have hk' : k = (BitVec.ofNat 8 k).toNat := by simp; omega
    rw [show (0 : SymSet).getLsbD k = false by simp, BitVec.getLsbD_and, Bool.and_eq_false_iff]
    by_contra hc
    rw [not_or, Bool.not_eq_false, Bool.not_eq_false, hk'] at hc
    exact hdis _ (((h.isTree x hx).syms h.arena nl hnl _).1 hc.1) _ (((h.isTree y hy).syms h.arena nr hnr _).1 hc.2) rfl
  have hstep : ∀ d, mergeOnce co ⟨pq, node, d⟩ = .ok ⟨pqInsert e' rest,
      node ++ [.internal (indexOfVal x.val) (indexOfVal y.val) (a.prio + b.prio) (nodeSyms nl ||| nodeSyms nr)], d⟩ := by
    intro d
    simp only [mergeOnce, hpa, hpb, mergePair, hcv, hnl, hnr, e']
  refine ⟨_, _, Function.update T e' (.node (T x) (T y) (a.prio + b.prio)), hstep, ?_, ?_, e' :: rest, ?_,
    pqInsert_perm e' rest⟩
  rotate_left
  · rw [pqInsert_length]; omega
  · have := Merges.step (co := co) a b rest pq node nl nr ((isMinimal_perm hperm).1 ha) ((isMinimal_perm hpermB).1 hb)
      (by rw [hcv]; exact hnl) (by rw [hcv]; exact hnr) hperm
    rwa [hcv] at this
  -- the invariant again
  have hpermI := pqInsert_perm e' rest
  have hleaves' : (T x).leaves ++ (T y).leaves = (HTree.node (T x) (T y) (a.prio + b.prio)).leaves := rfl
  have hidx : (indexOfVal e'.val).toNat = node.length := indexOfVal_valOfIndex (by omega)
  have hTrest : ∀ e ∈ rest, Function.update T e' (.node (T x) (T y) (a.prio + b.prio)) e = T e := by
    intro e he
    exact Function.update_of_ne (fun hc : e = e' => hnot (hc ▸ he)) _ _
  constructor
  case small => exact h.small
  case syms => exact h.syms
  case wf =>
    exact pqInsert_wf e' ((h.wf.sublist List.erase_sublist).sublist List.erase_sublist)
  case ties =>
    refine ((hpermI.map _).nodup_iff).2 (List.nodup_cons.2 ⟨?_, hrn⟩)
    simp only [List.mem_map, not_exists, not_and]
    exact hnew
  case count => rw [pqInsert_length, List.length_append]; simp; omega
  case pos => intro hc; have := pqInsert_length e' rest; simp [hc] at this
  case leaves =>
    obtain ⟨tail, ht, hint⟩ := h.leaves
    refine ⟨tail ++ [.internal (indexOfVal x.val) (indexOfVal y.val) (a.prio + b.prio) (nodeSyms nl ||| nodeSyms nr)],
      by rw [ht]; simp, fun n hn => ?_⟩
    rcases List.mem_append.1 hn with hn | hn
    · exact hint n hn
    · exact ⟨_, _, _, _, List.mem_singleton.1 hn⟩
  case isTree =>
    intro e he
    rcases mem_pqInsert.1 he with rfl | he
    · rw [Function.update_self]
      exact .internal _ _ _ _ _ _ _ (nodeAt_last node _ (by omega)) ((h.isTree x hx).append _) ((h.isTree y hy).append _)
    · rw [hTrest e he]; exact (h.isTree e (hrestpq e he)).append _
  case freq =>
    intro e he
    rcases mem_pqInsert.1 he with rfl | he
    · rw [Function.update_self]; rfl
    · rw [hTrest e he]; exact h.freq e (hrestpq e he)
  case sum =>
    intro e he
    rcases mem_pqInsert.1 he with rfl | he
    · rw [Function.update_self, ← hleaves', freqSum_perm hpxy, freqSum_append, ← hsumA, ← hsumB]; exact hadd
    · rw [hTrest e he]; exact h.sum e (hrestpq e he)
  case perm =>
    refine (hpermI.flatMap_right _).trans ?_
    rw [List.flatMap_cons, flatMap_update hnot, Function.update_self, ← hleaves']
    exact ((hpxy.append_right _).trans (by rw [List.append_assoc])).trans hall
  case last => exact ⟨e', mem_pqInsert.2 (Or.inl rfl), by rw [hidx]; simp⟩
  case own =>
    have ho := h.own
    have h1 : (pqInsert e' rest).map (fun e => (indexOfVal e.val).toNat) |>.Perm
        (node.length :: rest.map fun e => (indexOfVal e.val).toNat) := by
      have := hpermI.map fun e => (indexOfVal e.val).toNat
      simpa [hidx] using this
    have h2 : (pq.map fun e => (indexOfVal e.val).toNat).Perm
        ((indexOfVal x.val).toNat :: (indexOfVal y.val).toNat :: rest.map fun e => (indexOfVal e.val).toNat) := by
      have := hperm.map fun e => (indexOfVal e.val).toNat
      rcases hxy with ⟨rfl, rfl⟩ | ⟨rfl, rfl⟩
      · simpa using this
      · exact (by simpa using this : List.Perm _ _).trans (List.Perm.swap _ _ _)
    simp only [List.flatMap_append, List.length_append, List.length_singleton, List.range_succ]
    have h3 := (h2.append_right (node.flatMap fun n => (nodeChildren n).map BitVec.toNat)).symm.trans ho
    refine (h1.append_right _).trans ?_
    simp only [List.flatMap_cons, List.flatMap_nil, nodeChildren, List.map_cons, List.map_nil, List.append_nil]
    refine List.Perm.trans ?_ (List.perm_append_comm (l₁ := [node.length]))
    simp only [List.cons_append, List.nil_append]
    refine List.Perm.cons _ (List.Perm.trans ?_ h3)
    simp only [List.cons_append]
    rw [← List.append_assoc]
    exact List.perm_append_comm (l₂ := [(indexOfVal x.val).toNat, (indexOfVal y.val).toNat])
  case arena => exact arenaOk_append h.arena hnl hnr (by rw [hfl, hfr, hadd, hsumxy]) hdisj

/-! ## The seeded queue -/

theorem seedItems_length (k : Nat) (ps : List (Symbol × Count)) : (seedItems k ps).length = ps.length := by
  induction ps generalizing k with
  | nil => rfl
  | cons p ps ih => simp [seedItems, ih]

theorem seedItems_tie (k : Nat) (ps : List (Symbol × Count)) : (seedItems k ps).map Entry.tie = ps.map Prod.fst := by
  induction ps generalizing k with
  | nil => rfl
  | cons p ps ih => simp [seedItems, ih]

theorem seedItems_leaves (k : Nat) (ps : List (Symbol × Count)) :
    ((seedItems k ps).flatMap fun e => (HTree.leaf e.tie e.prio).leaves) = leafPairs ps := by
  induction ps generalizing k with
  | nil => rfl
  | cons p ps ih => simpa [seedItems, leafPairs, HTree.leaves] using ih (k + 1)

theorem seedItems_index (k : Nat) (ps : List (Symbol × Count)) (h : k + ps.length ≤ 256) :
    (seedItems k ps).map (fun e => (indexOfVal e.val).toNat) = List.range' k ps.length := by
  induction ps generalizing k with
  | nil => rfl
  | cons p ps ih =>
    simp only [List.length_cons] at h
    simp [seedItems, ih (k + 1) (by omega), List.range'_succ, indexOfVal_valOfIndex (show k < 512 by omega)]

theorem mem_seedItems {k : Nat} {ps : List (Symbol × Count)} (h : k + ps.length ≤ 256) {e : Entry}
    (he : e ∈ seedItems k ps) : ∃ j c, ps[j]? = some (e.tie, c) ∧ e.prio = prioOfCount c ∧
      (indexOfVal e.val).toNat = k + j := by
  induction ps generalizing k with
  | nil => simp [seedItems] at he
  | cons p ps ih =>
    simp only [List.length_cons] at h
    rcases List.mem_cons.1 he with rfl | he
    · exact ⟨0, p.2, rfl, rfl, indexOfVal_valOfIndex (by omega)⟩
    · obtain ⟨j, c, h1, h2, h3⟩ := ih (by omega) he
      exact ⟨j + 1, c, by simpa using h1, h2, by omega⟩

theorem leaves_no_children (ps : List (Symbol × Count)) :
    ((ps.map leafOf).flatMap fun n => (nodeChildren n).map BitVec.toNat) = [] := by
  induction ps with
  | nil => rfl
  | cons p ps ih => simpa [leafOf, nodeChildren] using ih

/-- After step 2 the invariant of the merge loop holds (41_tree_build.md R115). -/
theorem seed_ok (ps : List (Symbol × Count)) (hne : ps ≠ []) (hlen : ps.length ≤ 256) (hsym : (ps.map Prod.fst).Nodup) :
    BuildOk ps (pqBuildFrom (seedItems 0 ps)) (ps.map leafOf) (fun e => .leaf e.tie e.prio) := by
  have hperm := pqBuildFrom_perm (seedItems 0 ps)
  have hmem : ∀ e ∈ pqBuildFrom (seedItems 0 ps), e ∈ seedItems 0 ps := fun e he => hperm.mem_iff.1 he
  have hlen' := hperm.length_eq
  rw [seedItems_length] at hlen'
  have hpos : 0 < ps.length := List.length_pos_iff.2 hne
  constructor
  case small => exact hlen
  case syms => exact hsym
  case wf => exact pqBuildFrom_wf _
  case ties => rw [(hperm.map _).nodup_iff, seedItems_tie]; exact hsym
  case count => simp [hlen']; omega
  case pos => intro hc; rw [hc] at hlen'; simp at hlen'; omega
  case leaves => exact ⟨[], by simp, by simp⟩
  case isTree =>
    intro e he
    obtain ⟨j, c, h1, h2, h3⟩ := mem_seedItems (by omega) (hmem e he)
    refine .leaf _ _ _ (symsOf e.tie) ?_
    simp [nodeAt, h3, h1, leafOf, h2]
  case freq => intro e _; rfl
  case sum => intro e _; simp [HTree.leaves, freqSum]
  case perm => rw [← seedItems_leaves 0 ps]; exact hperm.flatMap_right _
  case last =>
    have hidx := seedItems_index 0 ps (by omega)
    have hl : ps.length - 1 ∈ List.range' 0 ps.length := by simp [List.mem_range']; omega
    rw [← hidx] at hl
    obtain ⟨e, he, hv⟩ := List.mem_map.1 hl
    exact ⟨e, hperm.mem_iff.2 he, by rw [hv]; simp; omega⟩
  case own =>
    rw [leaves_no_children, List.append_nil]
    have := hperm.map fun e => (indexOfVal e.val).toNat
    rw [seedItems_index 0 ps (by omega), ← List.range_eq_range'] at this
    simpa using this
  case arena =>
    refine ⟨fun i s f y h => ?_, fun i l r f y h => ?_⟩
    · simp only [List.getElem?_map, Option.map_eq_some_iff, leafOf, Node.leaf.injEq] at h
      obtain ⟨p, _, rfl, _, rfl⟩ := h
      rfl
    · simp [leafOf] at h

/-! ## The merge loop and the whole build -/

/-- Any number of merges on collections. -/
abbrev MergeStar (co : ChildOrder) := Relation.ReflTransGen (Merges co)

theorem Merges.of_perm {co : ChildOrder} {pq pq' : List Entry} {node : List Node} {X : List Entry × List Node}
    (h : Merges co (pq, node) X) (hp : pq'.Perm pq) : Merges co (pq', node) X := by
  cases h with
  | step a b rest _ _ nl nr ha hb hl hr hpq => exact .step a b rest _ _ nl nr ha hb hl hr (hp.trans hpq)

theorem mergeStar_of_perm {co : ChildOrder} {pq pq' : List Entry} {node node' : List Node} {e : Entry}
    (h : MergeStar co (pq, node) ([e], node')) (hp : pq'.Perm pq) : MergeStar co (pq', node) ([e], node') := by
  rcases Relation.ReflTransGen.cases_head h with h | ⟨X, h1, h2⟩
  · obtain ⟨rfl, rfl⟩ := Prod.mk.injEq .. ▸ h
    rw [List.perm_singleton.1 hp]
  · exact Relation.ReflTransGen.head (h1.of_perm hp) h2

/-- The loop ends with one entry in the queue after as many passes as the queue had entries at most
(41_tree_build.md R122), drawing nothing (40_priority_queue.md R100). -/
theorem mergeLoop_ok (co : ChildOrder) {ps : List (Symbol × Count)} (k : Nat) {pq : List Entry} {node : List Node}
    {T : Entry → HTree} (h : BuildOk ps pq node T) (hk : pq.length ≤ k + 1) :
    ∃ e node' T', (∀ d, mergeLoop co k ⟨pq, node, d⟩ = .ok ⟨[e], node', d⟩) ∧ BuildOk ps [e] node' T' ∧
      MergeStar co (pq, node) ([e], node') := by
  induction k generalizing pq node T with
  | zero =>
    obtain ⟨e, rfl⟩ : ∃ e, pq = [e] := by
      have := List.length_pos_iff.2 h.pos
      exact List.length_eq_one_iff.1 (by omega)
    exact ⟨e, node, T, fun d => rfl, h, .refl⟩
  | succ k ih =>
    by_cases h1 : 1 < pq.length
    · obtain ⟨pq', node', T', hs, hb, hl, pq'', hm, hp⟩ := mergeOnce_ok co h h1
      obtain ⟨e, node2, T2, hs2, hb2, hm2⟩ := ih hb (by omega)
      refine ⟨e, node2, T2, fun d => ?_, hb2, Relation.ReflTransGen.head hm (mergeStar_of_perm hm2 hp.symm)⟩
      simp [mergeLoop, pqSize, h1, hs d, hs2 d]
    · obtain ⟨e, rfl⟩ : ∃ e, pq = [e] := by
        have := List.length_pos_iff.2 h.pos
        exact List.length_eq_one_iff.1 (by omega)
      exact ⟨e, node, T, fun d => by simp [mergeLoop, pqSize], h, .refl⟩

/-- What is true of the arena `node`, the root and the tree `t` that `build_tree` leaves for the table `ft`
(10_state.md R30, R31; 41_tree_build.md R121, R122). -/
structure BuiltOk (ft : Table Count) (node : List Node) (root : NodeIdx) (t : HTree) : Prop where
  count : node.length + 1 = 2 * (tablePairs ft).length
  rootLast : root.toNat + 1 = node.length
  leaves : ∃ tail, node = (tablePairs ft).map leafOf ++ tail ∧ ∀ n ∈ tail, ∃ l r f y, n = Node.internal l r f y
  isTree : IsTree node root t
  perm : t.leaves.Perm (leafPairs (tablePairs ft))
  total : t.freq.toNat = countTotal ft
  own : (node.flatMap fun n => (nodeChildren n).map BitVec.toNat).Perm (List.range (node.length - 1))
  arena : arenaOk node

/-- The state with a built tree in it: what a successful `build_tree` leaves of `s` (41_tree_build.md R119). -/
def builtState (node : List Node) (root : NodeIdx) (s : State) : State :=
  { s with
    pq := [], node := node, nodeCount := node.length, root := some root, treeValid := true
    ct := tableEmpty Code }

theorem pqPop_singleton (e : Entry) (d : Nat) : pqPop [e] d = some ⟨e, [], d⟩ := by
  have : minimalEntries [e] = [e] := by simp [minimalEntries, leastKey, keyEq]
  simp [pqPop, this]

theorem freqSum_countTotal (ft : Table Count) : freqSum (leafPairs (tablePairs ft)) = countTotal ft := by
  simp [freqSum, leafPairs, countTotal, prioOfCount_toNat, Function.comp_def]

/-- `build_tree` on a table that is not empty: for every state with that table it ends with the same complete tree, whatever
the queue, the old tree and the free choices are (41_tree_build.md R119, R120; 40_priority_queue.md R100). -/
theorem buildTree_ok (co : ChildOrder) (ft : Table Count) (hne : tablePairs ft ≠ []) :
    ∃ node root t, BuiltOk ft node root t ∧ (∀ s : State, s.ft = ft → buildTree co s = .ok (builtState node root s)) ∧
      ∃ e, root = indexOfVal e.val ∧
        MergeStar co (seedItems 0 (tablePairs ft), (tablePairs ft).map leafOf) ([e], node) := by
  have hsym : ((tablePairs ft).map Prod.fst).Nodup := symbols_nodup ft
  have hseed := seed_ok _ hne (tablePairs_length_le ft) hsym
  have hperm := pqBuildFrom_perm (seedItems 0 (tablePairs ft))
  obtain ⟨e, node, T, hs, hb, hm⟩ := mergeLoop_ok co (tablePairs ft).length hseed (by
    rw [hperm.length_eq, seedItems_length]; omega)
  refine ⟨node, indexOfVal e.val, T e, ?_, ?_, e, rfl, mergeStar_of_perm hm hperm.symm⟩
  · have hc := hb.count
    simp only [List.length_singleton] at hc
    obtain ⟨e', he', hlast⟩ := hb.last
    obtain rfl := List.mem_singleton.1 he'
    have hpos : 0 < (tablePairs ft).length := List.length_pos_iff.2 hne
    have hp := hb.perm
    simp only [List.flatMap_cons, List.flatMap_nil, List.append_nil] at hp
    refine ⟨by omega, hlast, hb.leaves, hb.isTree e' (by simp), hp, ?_, ?_, hb.arena⟩
    · rw [hb.freq e' (by simp), hb.sum e' (by simp), freqSum_perm hp, freqSum_countTotal]
    · have ho := hb.own
      have hr : List.range node.length = List.range (node.length - 1) ++ [node.length - 1] := by
        rw [← List.range_succ]; congr 1; omega
      rw [hr] at ho
      simp only [List.map_cons, List.map_nil, List.cons_append, List.nil_append,
        show (indexOfVal e'.val).toNat = node.length - 1 by omega] at ho
      exact ((List.perm_cons _).1 (ho.trans List.perm_append_comm))
  · rintro s rfl
    cases hps : tablePairs s.ft with
    | nil => exact absurd hps hne
    | cons p ps =>
      rw [hps] at hs
      simp only [buildTree, hps, seedBuild, hs, finishTree, pqPop_singleton]
      rfl

/-- `build_tree` on an empty table raises `EmptyInput` before anything is written (41_tree_build.md R114). -/
theorem buildTree_empty (co : ChildOrder) (s : State) (h : tablePairs s.ft = []) :
    buildTree co s = .error (.raise .emptyInput) := by simp [buildTree, h]

/-- What `build_tree` can do: `EmptyInput` on an empty table, a complete tree on any other. -/
theorem buildTree_cases (co : ChildOrder) (s : State) :
    (tablePairs s.ft = [] ∧ buildTree co s = .error (.raise .emptyInput)) ∨
    ∃ node root t, BuiltOk s.ft node root t ∧ buildTree co s = .ok (builtState node root s) := by
  by_cases h : tablePairs s.ft = []
  · exact Or.inl ⟨h, buildTree_empty co s h⟩
  · obtain ⟨node, root, t, h1, h2, _⟩ := buildTree_ok co s.ft h
    exact Or.inr ⟨node, root, t, h1, h2 s rfl⟩

end Sys2Proof.Machine
end

