-- ==== Sys2Proof/Laws/Codes.lean ====
section
/-! SUPPORT. The laws of code derivation (spec/42_code_derivation.md): on the tree that the builder leaves, `build_codes`
always ends, with the root-to-leaf path of every present symbol (R130, R134), prefix-free, of 1 to 255 bits (R135). -/

namespace Sys2Proof.Machine

/-- The depth of a tree. -/
def HTree.depth : HTree → Nat
  | .leaf _ _ => 0
  | .node l r _ => max l.depth r.depth + 1

theorem HTree.leaves_pos (t : HTree) : 0 < t.leaves.length := by
  induction t with
  | leaf s f => simp [HTree.leaves]
  | node l r f ihl ihr => simp [HTree.leaves]; omega

theorem HTree.depth_lt (t : HTree) : t.depth < t.leaves.length := by
  induction t with
  | leaf s f => simp [HTree.leaves, HTree.depth]
  | node l r f ihl ihr =>
    have := l.leaves_pos
    have := r.leaves_pos
    simp only [HTree.leaves, HTree.depth, List.length_append]; omega

theorem HTree.paths_symbols (t : HTree) : t.paths.map Prod.fst = t.leaves.map Prod.fst := by
  induction t with
  | leaf s f => rfl
  | node l r f ihl ihr => simp [HTree.paths, HTree.leaves, ← ihl, ← ihr, Function.comp_def]

theorem HTree.path_length_le {t : HTree} {p : Symbol × Code} (h : p ∈ t.paths) : p.2.length ≤ t.depth := by
  induction t generalizing p with
  | leaf s f => simp [HTree.paths] at h; simp [h]
  | node l r f ihl ihr =>
    simp only [HTree.paths, List.mem_append, List.mem_map] at h
    simp only [HTree.depth]
    rcases h with ⟨q, hq, rfl⟩ | ⟨q, hq, rfl⟩
    · have := ihl hq; simp; omega
    · have := ihr hq; simp; omega

theorem HTree.path_pos {l r : HTree} {f : Prio} {p : Symbol × Code} (h : p ∈ (HTree.node l r f).paths) :
    0 < p.2.length := by
  simp only [HTree.paths, List.mem_append, List.mem_map] at h
  rcases h with ⟨q, _, rfl⟩ | ⟨q, _, rfl⟩ <;> simp

/-- No path is a prefix of another (42_code_derivation.md R134 b). -/
theorem HTree.paths_prefix_free {t : HTree} {p q : Symbol × Code} (hp : p ∈ t.paths) (hq : q ∈ t.paths)
    (h : p.2 <+: q.2) : p = q := by
  induction t generalizing p q with
  | leaf s f => simp [HTree.paths] at hp hq; rw [hp, hq]
  | node l r f ihl ihr =>
    simp only [HTree.paths, List.mem_append, List.mem_map] at hp hq
    rcases hp with ⟨p, hp, rfl⟩ | ⟨p, hp, rfl⟩ <;> rcases hq with ⟨q, hq, rfl⟩ | ⟨q, hq, rfl⟩ <;>
      simp only [List.cons_prefix_cons, true_and, reduceCtorEq, false_and] at h
    · rw [ihl hp hq h]
    · rw [ihr hp hq h]

/-- The table with every path of a list put in, behind a common beginning. -/
def setPaths (path : Code) (ct : Table Code) (ps : List (Symbol × Code)) : Table Code :=
  ps.foldl (fun c p => tableSet c p.1 (path ++ p.2)) ct

/-- `walk` on a tree of the arena records the path of each leaf (42_code_derivation.md R130). -/
theorem codeWalk_ok {node : List Node} {i : NodeIdx} {t : HTree} (h : IsTree node i t) (k : Nat) (hk : t.depth < k)
    (path : Code) (ct : Table Code) : codeWalk node k i path ct = .ok (setPaths path ct t.paths) := by
  induction h generalizing k path ct with
  | leaf i s f y h =>
    cases k with
    | zero => simp at hk
    | succ k => simp [codeWalk, h, setPaths, HTree.paths]
  | internal i l r f y tl tr h hl hr ihl ihr =>
    cases k with
    | zero => simp at hk
    | succ k =>
      simp only [HTree.depth] at hk
      simp only [codeWalk, h, ihl k (by omega), ihr k (by omega)]
      simp [setPaths, HTree.paths, List.foldl_append, List.foldl_map]

theorem setPaths_get {ps : List (Symbol × Code)} (hn : (ps.map Prod.fst).Nodup) (path : Code) (ct : Table Code)
    (s : Symbol) (c : Code) :
    tableGet (setPaths path ct ps) s = some c ↔
      (∃ q, (s, q) ∈ ps ∧ c = path ++ q) ∨ (s ∉ ps.map Prod.fst ∧ tableGet ct s = some c) := by
  induction ps generalizing ct with
  | nil => simp [setPaths]
  | cons p ps ih =>
    obtain ⟨s', q'⟩ := p
    simp only [List.map_cons, List.nodup_cons] at hn
    have := ih hn.2 (tableSet ct s' (path ++ q'))
    simp only [setPaths, List.foldl_cons] at this ⊢
    rw [this, tableGet_set]
    by_cases hs : s = s'
    · subst hs
      have : ∀ q, (s, q) ∉ ps := fun q hq => hn.1 (List.mem_map.2 ⟨_, hq, rfl⟩)
      simp [this, hn.1, eq_comm]
    · simp [hs]

/-- What is true of the code table `ct` of the tree `t` in the arena (42_code_derivation.md R131, R134, R135). -/
structure CodesFor (ft : Table Count) (node : List Node) (root : NodeIdx) (t : HTree) (ct : Table Code) : Prop where
  present : ∀ s, (tableGet ct s).isSome = (tableGet ft s).isSome
  single : ∀ s f, t = .leaf s f → tableGet ct s = some [false]
  path : ∀ l r f, t = .node l r f → ∀ s c, tableGet ct s = some c ↔ (s, c) ∈ t.paths
  bounds : ∀ s c, tableGet ct s = some c → 1 ≤ c.length ∧ c.length ≤ Config.maxCodeLen
  prefixFree : ∀ s s' c c', tableGet ct s = some c → tableGet ct s' = some c' → c <+: c' → s = s'

/-- `build_codes` on a built tree always ends, with the codes of its leaves. -/
theorem treeCodes_ok {ft : Table Count} {node : List Node} {root : NodeIdx} {t : HTree}
    (h : BuiltOk ft node root t) : ∃ ct, treeCodes node root = .ok ct ∧ CodesFor ft node root t ct := by
  have hsym : t.leaves.map Prod.fst |>.Perm (symbols ft) := by
    simpa [leafPairs, symbols, Function.comp_def] using h.perm.map Prod.fst
  have hlen : t.leaves.length = (tablePairs ft).length := by simpa [leafPairs] using h.perm.length_eq
  have hnod : (t.paths.map Prod.fst).Nodup := by
    rw [HTree.paths_symbols]; exact hsym.nodup_iff.2 (symbols_nodup ft)
  have hmem : ∀ s, s ∈ t.paths.map Prod.fst ↔ (tableGet ft s).isSome = true := by
    intro s; rw [HTree.paths_symbols, hsym.mem_iff, mem_symbols]
  have hle := tablePairs_length_le ft
  have hdepth := t.depth_lt
  have hcount := h.count
  cases ht : h.isTree with
  | leaf _ s f y hn =>
    refine ⟨tableSet (tableEmpty Code) s [false], by simp [treeCodes, hn], ?_, ?_, ?_, ?_, ?_⟩
    · intro r
      have := hmem r
      simp only [HTree.paths, List.map_cons, List.map_nil, List.mem_singleton] at this
      rw [tableGet_set, Bool.eq_iff_iff, ← this]
      split <;> simp_all
    · rintro s' f' ⟨⟩; simp
    · rintro l r f' ⟨⟩
    · intro r c hc
      rw [tableGet_set] at hc
      split at hc <;> simp_all
      subst hc
      simp [Config.maxCodeLen]
    · intro r r' c c' hc hc' _
      rw [tableGet_set] at hc hc'
      split at hc <;> split at hc' <;> simp_all
  | internal _ l r f y tl tr hn hl hr =>
    have hget : ∀ s c, tableGet (setPaths [] (tableEmpty Code) (HTree.node tl tr f).paths) s = some c ↔
        (s, c) ∈ (HTree.node tl tr f).paths := by
      intro s c
      rw [setPaths_get hnod]
      simp
    refine ⟨setPaths [] (tableEmpty Code) (HTree.node tl tr f).paths, ?_, ?_, ?_, ?_, ?_, ?_⟩
    · simp only [treeCodes, hn]
      exact codeWalk_ok h.isTree _ (by omega) _ _
    · intro s
      rw [Bool.eq_iff_iff, ← hmem s, Option.isSome_iff_exists]
      simp only [hget, List.mem_map, Prod.exists, exists_and_right, exists_eq_right]
    · rintro s f' ⟨⟩
    · rintro l r f' ⟨⟩ s c; exact hget s c
    · intro s c hc
      have hc := (hget s c).1 hc
      have := HTree.path_pos hc
      have := HTree.path_length_le hc
      simp only [Config.maxCodeLen]
      simp only at *
      omega
    · intro s s' c c' hc hc' hp
      have := HTree.paths_prefix_free ((hget s c).1 hc) ((hget s' c').1 hc') hp
      exact congrArg Prod.fst this

/-- A path of a tree leads through the arena from its root to the leaf it belongs to. -/
theorem followPath_of_mem {node : List Node} {i : NodeIdx} {t : HTree} (h : IsTree node i t) {s : Symbol} {c : Code}
    (hc : (s, c) ∈ t.paths) : ∃ f y, followPath node i c = some (.leaf s f y) := by
  induction h generalizing s c with
  | leaf i s' f y h =>
    simp only [HTree.paths, List.mem_singleton, Prod.mk.injEq] at hc
    obtain ⟨rfl, rfl⟩ := hc
    exact ⟨f, y, by simpa [followPath] using h⟩
  | internal i l r f y tl tr h hl hr ihl ihr =>
    simp only [HTree.paths, List.mem_append, List.mem_map, Prod.mk.injEq] at hc
    rcases hc with ⟨q, hq, rfl, rfl⟩ | ⟨q, hq, rfl, rfl⟩
    · simpa [followPath, h] using ihl hq
    · simpa [followPath, h] using ihr hq

end Sys2Proof.Machine
end

