-- ==== Sys2Proof/Laws/Encoding.lean ====
section
/-! SUPPORT. The laws of the descriptor's fields (spec/30_encoding.md R71): taking a word apart and putting fields together
are inverse, and what each arm of the decoder answers. -/

namespace Sys2Proof

@[simp] theorem format_ofWord_toWord (f : Format) : Format.ofWord f.toWord = f := by
  obtain ⟨opc, tie, val, rsv, prio⟩ := f
  simp only [Format.ofWord, Format.toWord, Format.mk.injEq]
  refine ⟨?_, ?_, ?_, ?_, ?_⟩ <;> ext i hi <;> grind

@[simp] theorem format_toWord_ofWord (d : Descriptor) : (Format.ofWord d).toWord = d := by
  ext i hi
  simp only [Format.ofWord, Format.toWord]
  grind

theorem decode_toWord (f : Format) : decode f.toWord = decodeFormat f := by simp [decode]

theorem encode_eq_iff (i : Instr) (d : Descriptor) : encode i = d ↔ i.format = Format.ofWord d := by
  constructor
  · rintro rfl; simp [encode]
  · intro h; simp [encode, h]

/-- A zero-extended count fits `PRIO[63:0]` and comes back whole. -/
theorem count_extends (c : Count) :
    (c.setWidth 72).extractLsb' 64 8 = 0 ∧ (c.setWidth 72).extractLsb' 0 64 = c := by
  constructor <;> ext i hi <;> grind

/-- What the decoder answers for a row without operands (30_encoding.md R71). -/
theorem decodeBare_ok {f : Format} {i j : Instr} :
    decodeBare f i = .ok j ↔ i = j ∧ f.rsv = 0 ∧ f.tie = 0 ∧ f.val = 0 ∧ f.prio = 0 := by
  unfold decodeBare
  split_ifs <;> simp_all
  tauto

/-- What the decoder answers for PQ_PUSH (30_encoding.md R71). -/
theorem decodePush_ok {f : Format} {j : Instr} :
    decodePush f = .ok j ↔ .pqPush f.prio f.tie f.val = j ∧ f.rsv = 0 := by
  unfold decodePush
  split_ifs <;> simp_all

/-- What the decoder answers for FT_WRITE (30_encoding.md R71). -/
theorem decodeWrite_ok {f : Format} {j : Instr} :
    decodeWrite f = .ok j ↔
      .ftWrite f.tie (f.prio.extractLsb' 0 64) = j ∧ f.rsv = 0 ∧ f.val = 0 ∧ f.prio.extractLsb' 64 8 = 0 := by
  unfold decodeWrite
  split_ifs <;> simp_all

/-- A 72-bit field whose high byte is zero is the zero extension of its low 64 bits. -/
theorem prio_of_count {p : Prio} (h : p.extractLsb' 64 8 = 0) : (p.extractLsb' 0 64).setWidth 72 = p := by
  ext i hi
  have := congrArg (fun x : BitVec 8 => x.getLsbD (i - 64)) h
  simp only [BitVec.getLsbD_extractLsb'] at this
  grind

/-- Equal words have equal fields. -/
theorem toWord_inj (f g : Format) : f.toWord = g.toWord ↔ f = g :=
  ⟨fun h => by simpa using congrArg Format.ofWord h, fun h => h ▸ rfl⟩

/-- The field-wise AND of two descriptors. -/
def formatAnd (f m : Format) : Format :=
  ⟨f.opc &&& m.opc, f.tie &&& m.tie, f.val &&& m.val, f.rsv &&& m.rsv, f.prio &&& m.prio⟩

theorem toWord_and (f m : Format) : f.toWord &&& m.toWord = (formatAnd f m).toWord := by
  simp only [Format.toWord, formatAnd]
  apply BitVec.eq_of_getLsbD_eq
  intro i _
  simp only [BitVec.getLsbD_and, BitVec.getLsbD_append]
  split_ifs <;> rfl

/-- Selecting a row, field by field (30_encoding.md R74). -/
theorem selects_iff (r : OpcodeRow) (m p f : Format) (hm : r.mask = m.toWord) (hp : r.pattern = p.toWord) :
    r.selects f.toWord = true ↔ formatAnd f m = p := by
  rw [OpcodeRow.selects, beq_iff_eq, hm, hp, toWord_and, toWord_inj]

end Sys2Proof
end

