-- ==== Sys2Proof/Laws/Header.lean ====
section
/-! SUPPORT. The laws of the header (spec/44_container_format.md R151 to R161): every token and every count reads back as what
was written, the serialised header holds no other newline than its last two (R154), and the tokens of the serialised line are
its pairs. -/

namespace Sys2Proof.Machine

/-! ## Tokens of symbols -/

/-- The printable bytes that are no delimiter of the header. -/
def plainByte (b : Byte) : Prop := b ≠ 0x3A#8 ∧ b ≠ 0x5C#8

theorem hexDigit_plain : ∀ v, v < 16 → hexDigit v ≠ 0x3A#8 ∧ hexDigit v ≠ 0x5C#8 := by decide

/-- A token is one plain byte, an escape of two bytes, or `\x` and two hexadecimal digits (44_container_format.md R151). -/
theorem token_shape (s : Symbol) :
    (token s = [s] ∧ plainByte s) ∨ (∃ e, token s = [0x5C, e]) ∨
      ∃ h l, token s = [0x5C, 0x78, h, l] ∧ plainByte h ∧ plainByte l := by
  unfold token
  split_ifs with h1 h2 h3 h4 h5 h6 h7
  · exact Or.inr (Or.inl ⟨_, rfl⟩)
  · exact Or.inr (Or.inl ⟨_, rfl⟩)
  · exact Or.inr (Or.inl ⟨_, rfl⟩)
  · exact Or.inr (Or.inl ⟨_, rfl⟩)
  · exact Or.inr (Or.inl ⟨_, rfl⟩)
  · exact Or.inr (Or.inl ⟨_, rfl⟩)
  · exact Or.inl ⟨rfl, h6, h1⟩
  · have := s.isLt
    exact Or.inr (Or.inr ⟨_, _, rfl, hexDigit_plain _ (by omega), hexDigit_plain _ (by omega)⟩)

theorem unescape_token (s : Symbol) : unescape (token s) = some s := by revert s; decide +kernel

/-- Every byte of a token is printable and no space (44_container_format.md R151, R154). -/
theorem token_bytes (s : Symbol) : ∀ b ∈ token s, isSpace b = false ∧ 0x21#8 ≤ b ∧ b ≤ 0x7E#8 := by
  have : ∀ s : Symbol, ((token s).all fun b => !isSpace b && decide (0x21#8 ≤ b) && decide (b ≤ 0x7E#8)) = true := by
    decide +kernel
  simpa [and_assoc] using this s

theorem token_ne_nil (s : Symbol) : token s ≠ [] := by
  rcases token_shape s with ⟨h, _⟩ | ⟨e, h⟩ | ⟨x, l, h, _⟩ <;> simp [h]

/-! ## The split of a token -/

theorem splitToken_colon (r : List Byte) : splitToken (0x3A#8 :: r) = some ([], r) := by
  cases r <;> simp [splitToken]

theorem splitToken_plain {b : Byte} (h : plainByte b) {t l r : List Byte} (ht : splitToken t = some (l, r)) :
    splitToken (b :: t) = some (b :: l, r) := by
  cases t with
  | nil => simp [splitToken] at ht
  | cons e bs => simp [splitToken, h.1, h.2, ht]

theorem splitToken_escape (e : Byte) {t l r : List Byte} (ht : splitToken t = some (l, r)) :
    splitToken (0x5C#8 :: e :: t) = some (0x5C#8 :: e :: l, r) := by simp [splitToken, ht]

/-- A written pair splits at its separating colon, the colon symbol's too (44_container_format.md R158). -/
theorem splitToken_token (s : Symbol) (r : List Byte) : splitToken (token s ++ 0x3A#8 :: r) = some (token s, r) := by
  rcases token_shape s with ⟨h, hp⟩ | ⟨e, h⟩ | ⟨x, l, h, hx, hl⟩ <;> rw [h]
  · exact splitToken_plain hp (splitToken_colon r)
  · exact splitToken_escape e (splitToken_colon r)
  · exact splitToken_escape 0x78#8 (splitToken_plain hx (splitToken_plain hl (splitToken_colon r)))

/-! ## Counts -/

theorem decDigit_spec : ∀ v, v < 10 → 0x30#8 ≤ decDigit v ∧ decDigit v ≤ 0x39#8 ∧ (decDigit v).toNat - 0x30 = v ∧
    isSpace (decDigit v) = false := by decide

theorem decDigits_value (k n : Nat) (acc : List Byte) (h : n < 10 ^ (k + 1)) :
    decValue 0 (decDigits (k + 1) n acc) = decValue n acc := by
  induction k generalizing n acc with
  | zero =>
    have hn : n < 10 := by simpa using h
    obtain ⟨h1, h2, h3, _⟩ := decDigit_spec n hn
    simp [decDigits, hn, decValue, h1, h2, h3]
  | succ k ih =>
    rw [decDigits]
    split
    · rename_i hn
      obtain ⟨h1, h2, h3, _⟩ := decDigit_spec n hn
      simp [decValue, h1, h2, h3]
    · obtain ⟨h1, h2, h3, _⟩ := decDigit_spec (n % 10) (by omega)
      rw [ih (n / 10) _ (by rw [Nat.pow_succ] at h; omega), decValue, if_pos ⟨h1, h2⟩, h3]
      congr 1; omega

theorem decDigits_bytes (k n : Nat) (acc : List Byte) :
    ∀ b ∈ decDigits k n acc, b ∈ acc ∨ (0x30#8 ≤ b ∧ b ≤ 0x39#8 ∧ isSpace b = false) := by
  induction k generalizing n acc with
  | zero => intro b hb; exact Or.inl hb
  | succ k ih =>
    intro b hb
    rw [decDigits] at hb
    split at hb
    · rename_i hn
      obtain ⟨h1, h2, _, h4⟩ := decDigit_spec n hn
      rcases List.mem_cons.1 hb with rfl | hb
      · exact Or.inr ⟨h1, h2, h4⟩
      · exact Or.inl hb
    · obtain ⟨h1, h2, _, h4⟩ := decDigit_spec (n % 10) (by omega)
      rcases ih _ _ b hb with hb | hb
      · rcases List.mem_cons.1 hb with rfl | hb
        · exact Or.inr ⟨h1, h2, h4⟩
        · exact Or.inl hb
      · exact Or.inr hb

theorem dec_bytes (c : Count) : ∀ b ∈ dec c, 0x30#8 ≤ b ∧ b ≤ 0x39#8 ∧ isSpace b = false := by
  intro b hb
  simpa using decDigits_bytes 20 c.toNat [] b hb

/-- A count reads back as written (44_container_format.md R152, R160). -/
theorem parseCount_dec (c : Count) : parseCount (dec c) = some c := by
  have hlt := c.isLt
  have hv : decValue 0 (dec c) = some c.toNat := by
    rw [dec, decDigits_value 19 c.toNat [] (by omega)]; rfl
  cases hd : dec c with
  | nil =>
    exfalso
    have : ∀ (k n : Nat) (acc : List Byte), 0 < (decDigits (k + 1) n acc).length := by
      intro k
      induction k with
      | zero => intro n acc; simp only [decDigits]; split <;> simp
      | succ k ih => intro n acc; rw [decDigits]; split <;> [simp; exact ih _ _]
    have := this 19 c.toNat []
    rw [dec] at hd
    rw [hd] at this
    simp at this
  | cons b bs =>
    rw [hd] at hv
    simp only [parseCount, hv]
    rw [if_pos hlt]
    simp

/-! ## Pairs and lines -/

/-- A written pair reads back as written (44_container_format.md R158 to R160). -/
theorem parseToken_hdrPair (p : Symbol × Count) : parseToken (hdrPair p) = .ok p := by
  simp [parseToken, hdrPair, splitToken_token, unescape_token, parseCount_dec]

theorem hdrPair_ne_nil (p : Symbol × Count) : hdrPair p ≠ [] := by
  intro h
  exact token_ne_nil p.1 (List.append_eq_nil_iff.1 h).1

/-- Every byte of a written pair is printable and no space. -/
theorem hdrPair_bytes (p : Symbol × Count) : ∀ b ∈ hdrPair p, isSpace b = false ∧ 0x21#8 ≤ b ∧ b ≤ 0x7E#8 := by
  intro b hb
  simp only [hdrPair, List.mem_append, List.mem_cons] at hb
  rcases hb with hb | rfl | hb
  · exact token_bytes p.1 b hb
  · decide
  · obtain ⟨h1, h2, h3⟩ := dec_bytes p.2 b hb
    refine ⟨h3, ?_, ?_⟩ <;> simp only [BitVec.le_def, BitVec.toNat_ofNat] at * <;> omega

/-- Every byte of the pairs is a space or printable (44_container_format.md R154). -/
theorem hdrPairs_bytes (ps : List (Symbol × Count)) : ∀ b ∈ hdrPairs ps, 0x20#8 ≤ b ∧ b ≤ 0x7E#8 := by
  have hpair : ∀ (p : Symbol × Count), ∀ b ∈ hdrPair p, 0x20#8 ≤ b ∧ b ≤ 0x7E#8 := by
    intro p b hb
    obtain ⟨_, h1, h2⟩ := hdrPair_bytes p b hb
    refine ⟨?_, h2⟩
    simp only [BitVec.le_def, BitVec.toNat_ofNat] at *; omega
  match ps with
  | [] => simp [hdrPairs]
  | [p] => exact hpair p
  | p :: q :: ps =>
    intro b hb
    simp only [hdrPairs, List.mem_append, List.mem_cons] at hb
    rcases hb with hb | rfl | hb
    · exact hpair p b hb
    · decide
    · exact hdrPairs_bytes (q :: ps) b hb

theorem tokensFrom_run (w : List Byte) (hw : ∀ b ∈ w, isSpace b = false) (cur rest : List Byte) :
    tokensFrom cur (w ++ rest) = tokensFrom (cur ++ w) rest := by
  induction w generalizing cur with
  | nil => simp
  | cons b bs ih =>
    have hb := hw b (by simp)
    simp [tokensFrom, hb, ih fun c hc => hw c (by simp [hc])]

/-- The tokens of the serialised line are its pairs (44_container_format.md R153, R157). -/
theorem tokens_hdrPairs (ps : List (Symbol × Count)) : tokens (hdrPairs ps) = ps.map hdrPair := by
  match ps with
  | [] => simp [tokens, hdrPairs, tokensFrom]
  | [p] =>
    have := tokensFrom_run (hdrPair p) (fun b hb => (hdrPair_bytes p b hb).1) [] []
    simp only [List.append_nil, List.nil_append] at this
    simp [tokens, hdrPairs, this, tokensFrom, hdrPair_ne_nil]
  | p :: q :: ps =>
    have ih := tokens_hdrPairs (q :: ps)
    have := tokensFrom_run (hdrPair p) (fun b hb => (hdrPair_bytes p b hb).1) [] (0x20#8 :: hdrPairs (q :: ps))
    rw [tokens, hdrPairs, this]
    have hsp : isSpace 0x20#8 = true := by decide
    simp only [List.nil_append, tokensFrom, hsp, if_true, if_neg (hdrPair_ne_nil p)]
    rw [tokens] at ih
    rw [ih]; rfl

theorem fillTable_hdrPairs (t : Table Count) (ps : List (Symbol × Count)) :
    fillTable t (ps.map hdrPair) = .ok (ps.foldl (fun u p => tableSet u p.1 p.2) t) := by
  induction ps generalizing t with
  | nil => rfl
  | cons p ps ih => simp [fillTable, parseToken_hdrPair, ih]

/-! ## The table put together again -/

theorem foldl_tableSet_get {α : Type} (ps : List (Symbol × α)) (hn : (ps.map Prod.fst).Nodup) (t : Table α) (s : Symbol) :
    tableGet (ps.foldl (fun u p => tableSet u p.1 p.2) t) s =
      if s ∈ ps.map Prod.fst then (ps.find? fun p => p.1 = s).map Prod.snd else tableGet t s := by
  induction ps generalizing t with
  | nil => simp
  | cons p ps ih =>
    simp only [List.map_cons, List.nodup_cons] at hn
    rw [List.foldl_cons, ih hn.2, tableGet_set]
    by_cases hs : p.1 = s
    · subst hs; simp [hn.1]
    · have hs' : s ∈ (p :: ps).map Prod.fst ↔ s ∈ ps.map Prod.fst := by
        rw [List.map_cons, List.mem_cons]; exact or_iff_right (Ne.symm hs)
      simp only [hs', Ne.symm hs, if_false, List.find?_cons, hs, decide_false]

/-- The pairs of a table, put into an empty one, give the table back (44_container_format.md R167). -/
theorem foldl_tablePairs {α : Type} (t : Table α) :
    (tablePairs t).foldl (fun u p => tableSet u p.1 p.2) (tableEmpty α) = t := by
  refine table_ext fun s => ?_
  have hn : ((tablePairs t).map Prod.fst).Nodup := symbols_nodup t
  rw [foldl_tableSet_get _ hn]
  split
  · rename_i hs
    have hs' := (mem_symbols t s).1 hs
    obtain ⟨v, hv⟩ := Option.isSome_iff_exists.1 hs'
    cases hf : (tablePairs t).find? (fun p => p.1 = s) with
    | none =>
      have := List.find?_eq_none.1 hf (s, v) ((mem_tablePairs t s v).2 hv)
      simp at this
    | some p =>
      have h1 := List.find?_some hf
      have h2 := List.mem_of_find?_eq_some hf
      simp only [decide_eq_true_eq] at h1
      obtain ⟨a, b⟩ := p
      simp only at h1
      subst h1
      simp [(mem_tablePairs t a b).1 h2]
  · rename_i hs
    rw [tableGet_empty]
    cases hv : tableGet t s with
    | none => rfl
    | some v => exact absurd ((mem_symbols t s).2 (by simp [hv])) hs

/-! ## Lines of the parser -/

/-- The parser reads a line up to its newline (44_container_format.md R155). -/
theorem hdrParseFrom_line (t : Table Count) (w : List Byte) (hw : ∀ b ∈ w, b ≠ 0x0A#8) (line rest : List Byte) :
    hdrParseFrom t line (w ++ rest) = hdrParseFrom t (line ++ w) rest := by
  induction w generalizing line with
  | nil => simp
  | cons b bs ih => simp [hdrParseFrom, hw b (by simp), ih fun c hc => hw c (by simp [hc])]

/-- What the parser can raise is `InvalidHeaderToken` alone (60_exceptions.md R184). -/
theorem hdrParseFrom_error {t : Table Count} {line inp : List Byte} {r : Raise}
    (h : hdrParseFrom t line inp = .error r) : r = .invalidHeaderToken := by
  have htok : ∀ tok r, parseToken tok = .error r → r = .invalidHeaderToken := by
    intro tok r h
    simp only [parseToken] at h
    repeat' split at h
    all_goals first | exact (Except.error.inj h).symm | cases h
  have hfill : ∀ toks t r, fillTable t toks = .error r → r = .invalidHeaderToken := by
    intro toks
    induction toks with
    | nil => intro t r h; cases h
    | cons tok toks ih =>
      intro t r h
      simp only [fillTable] at h
      split at h
      · rename_i r' hr; exact Except.error.inj h ▸ htok _ _ hr
      · exact ih _ _ h
  induction inp generalizing t line with
  | nil => exact (Except.error.inj h).symm
  | cons c rest ih =>
    simp only [hdrParseFrom] at h
    repeat' split at h
    · cases h
    · rename_i r' hr; exact Except.error.inj h ▸ hfill _ _ _ hr
    · exact ih h
    · exact ih h

end Sys2Proof.Machine
end

