-- ==== Sys2Proof/Laws/Payload.lean ====
section
/-! SUPPORT. The laws of the payload (spec/44_container_format.md R162, R163; spec/43_bit_decoder.md R140 to R145): packing
loses no bit and adds only the padding, unpacking reads back exactly the bits packed, the walk over the codes of a built
tree emits their symbols, and a walk over a built tree never meets an entry without a value. -/

namespace Sys2Proof.Machine

/-! ## Bits and bytes -/

@[simp] theorem byteBits_length (b : Byte) : (byteBits b).length = 8 := by simp [byteBits]

theorem streamBits_length (bs : List Byte) : (streamBits bs).length = 8 * bs.length := by
  induction bs with
  | nil => rfl
  | cons b bs ih => simp [streamBits, ih]; omega

theorem streamBits_append (a b : List Byte) : streamBits (a ++ b) = streamBits a ++ streamBits b := by
  induction a with
  | nil => rfl
  | cons x xs ih => simp [streamBits, ih]

/-- Eight bits packed into a byte are the bits of that byte (20_memory.md R57). -/
theorem byteBits_byteOf {bits : List Bit} (h : bits.length = 8) : byteBits (byteOf bits) = bits := by
  match bits, h with
  | [a, b, c, d, e, f, g, i], _ => revert a b c d e f g i; decide

/-- A byte is the packing of its bits (20_memory.md R57). -/
theorem byteOf_byteBits (b : Byte) : byteOf (byteBits b) = b := by revert b; decide

theorem streamBits_injective {a b : List Byte} (h : streamBits a = streamBits b) : a = b := by
  induction a generalizing b with
  | nil =>
    have := congrArg List.length h
    rw [streamBits_length, streamBits_length] at this
    exact (List.length_eq_zero_iff.1 (by simpa using this.symm)).symm
  | cons x xs ih =>
    cases b with
    | nil => have := congrArg List.length h; simp [streamBits_length] at this
    | cons y ys =>
      simp only [streamBits] at h
      obtain ⟨h1, h2⟩ := List.append_inj h (by simp)
      rw [ih h2, ← byteOf_byteBits x, h1, byteOf_byteBits]

/-! ## Packing -/

/-- The inner loop of the encoder keeps every bit in order (44_container_format.md R162). -/
theorem packCode_bits (buf : List Bit) (code : Code) (h : buf.length < 8) :
    streamBits (packCode buf code).1 ++ (packCode buf code).2 = buf ++ code ∧ (packCode buf code).2.length < 8 := by
  induction code generalizing buf with
  | nil => simpa [packCode, streamBits] using h
  | cons c cs ih =>
    simp only [packCode]
    split
    · rename_i h8
      obtain ⟨h1, h2⟩ := ih [] (by simp)
      refine ⟨?_, h2⟩
      simp only [streamBits, byteBits_byteOf h8, List.append_assoc, h1]
      simp
    · rename_i h8
      have := ih (buf ++ [c]) (by simp at h8 ⊢; omega)
      simpa using this

theorem packFlush_bits (buf : List Bit) (h : buf.length < 8) :
    ∃ p pad, packFlush buf = p ++ [pad] ∧ streamBits p = buf ++ List.replicate pad.toNat false ∧
      pad.toNat = (8 - buf.length % 8) % 8 := by
  simp only [packFlush]
  split
  · refine ⟨[_], _, rfl, ?_, ?_⟩
    · have : (buf ++ List.replicate (8 - buf.length) false).length = 8 := by simp; omega
      simp only [streamBits, byteBits_byteOf this, List.append_nil, BitVec.toNat_ofNat]
      congr 2; omega
    · simp; omega
  · have : buf = [] := List.length_eq_zero_iff.1 (by omega)
    subst this
    exact ⟨[], 0, rfl, by simp [streamBits], by simp⟩

/-- Every byte of an input has a code (44_container_format.md R164). -/
def allMapped (ct : Table Code) (x : List Byte) : Prop := ∀ b ∈ x, (tableGet ct b).isSome = true

/-- The encoder on an input whose every byte has a code: the payload holds exactly the code bits and the zero padding, and
the padding count follows (44_container_format.md R162). -/
theorem payloadPackFrom_ok (ct : Table Code) (buf : List Bit) (x : List Byte) (hb : buf.length < 8)
    (hx : allMapped ct x) :
    ∃ p pad, payloadPackFrom ct buf x = (p ++ [pad], none) ∧
      streamBits p = buf ++ codeBits ct x ++ List.replicate pad.toNat false ∧
      pad.toNat = (8 - (buf ++ codeBits ct x).length % 8) % 8 := by
  induction x generalizing buf with
  | nil =>
    obtain ⟨p, pad, h1, h2, h3⟩ := packFlush_bits buf hb
    exact ⟨p, pad, by simp [payloadPackFrom, h1], by simp [codeBits, h2], by simpa [codeBits] using h3⟩
  | cons b bs ih =>
    obtain ⟨code, hc⟩ := Option.isSome_iff_exists.1 (hx b (by simp))
    obtain ⟨hk, hl⟩ := packCode_bits buf code hb
    obtain ⟨p, pad, h1, h2, h3⟩ := ih _ hl fun c hc => hx c (by simp [hc])
    refine ⟨(packCode buf code).1 ++ p, pad, by simp [payloadPackFrom, hc, h1], ?_, ?_⟩
    · rw [streamBits_append, h2, ← List.append_assoc, ← List.append_assoc, hk]
      simp [codeBits, hc]
    · have hlen := congrArg List.length hk
      simp only [List.length_append, streamBits_length] at hlen
      simp only [codeBits, hc, Option.getD_some, List.length_append] at h3 ⊢
      rw [h3]; omega

/-- The encoder at the first byte without a code: the bytes completed before it are out (44_container_format.md R164). -/
theorem payloadPackFrom_unmapped (ct : Table Code) (buf : List Bit) (x : List Byte) (s : Symbol) (y : List Byte)
    (hb : buf.length < 8) (hx : allMapped ct x) (hs : tableGet ct s = none) :
    ∃ p buf', payloadPackFrom ct buf (x ++ s :: y) = (p, some (.unmappedSymbol s)) ∧
      streamBits p ++ buf' = buf ++ codeBits ct x ∧ buf'.length < 8 := by
  induction x generalizing buf with
  | nil => exact ⟨[], buf, by simp [payloadPackFrom, hs], by simp [streamBits, codeBits], hb⟩
  | cons b bs ih =>
    obtain ⟨code, hc⟩ := Option.isSome_iff_exists.1 (hx b (by simp))
    obtain ⟨hk, hl⟩ := packCode_bits buf code hb
    obtain ⟨p, buf', h1, h2, h3⟩ := ih _ hl fun c hc => hx c (by simp [hc])
    refine ⟨(packCode buf code).1 ++ p, buf', by simp [payloadPackFrom, hc, h1], ?_, h3⟩
    rw [streamBits_append, List.append_assoc, h2, ← List.append_assoc, hk]
    simp [codeBits, hc]

/-- An input either is mapped whole or has a first byte without a code. -/
theorem allMapped_or_split (ct : Table Code) (x : List Byte) :
    allMapped ct x ∨ ∃ pre s post, x = pre ++ s :: post ∧ allMapped ct pre ∧ tableGet ct s = none := by
  induction x with
  | nil => exact Or.inl (by simp [allMapped])
  | cons b bs ih =>
    cases hb : tableGet ct b with
    | none => exact Or.inr ⟨[], b, bs, rfl, by simp [allMapped], hb⟩
    | some c =>
      rcases ih with h | ⟨pre, s, post, rfl, h, hs⟩
      · exact Or.inl (by intro d hd; rcases List.mem_cons.1 hd with rfl | hd <;> [simp [hb]; exact h d hd])
      · exact Or.inr ⟨b :: pre, s, post, rfl, by
          intro d hd; rcases List.mem_cons.1 hd with rfl | hd <;> [simp [hb]; exact h d hd], hs⟩

/-- What ENCODE's payload can do: all bytes out, or the error of the first byte without a code. -/
theorem payloadPack_cases (ct : Table Code) (x : List Byte) :
    (allMapped ct x ∧ ∃ p pad, payloadPack ct x = (p ++ [pad], none)) ∨
    ∃ s p, s ∈ x ∧ tableGet ct s = none ∧ payloadPack ct x = (p, some (.unmappedSymbol s)) := by
  rcases allMapped_or_split ct x with h | ⟨pre, s, post, rfl, h, hs⟩
  · obtain ⟨p, pad, h1, _⟩ := payloadPackFrom_ok ct [] x (by simp) h
    exact Or.inl ⟨h, p, pad, h1⟩
  · obtain ⟨p, _, h1, _⟩ := payloadPackFrom_unmapped ct [] pre s post (by simp) h hs
    exact Or.inr ⟨s, p, by simp, hs, h1⟩

/-! ## Unpacking -/

/-- The valid bits of a payload that holds some bits and their padding are those bits (43_bit_decoder.md R142). -/
theorem validBits_of_padded {p : List Byte} {pad : Byte} {bits : List Bit}
    (h : streamBits p = bits ++ List.replicate pad.toNat false) : validBits p pad = bits := by
  have hl := congrArg List.length h
  simp only [streamBits_length, List.length_append, List.length_replicate] at hl
  cases p with
  | nil =>
    have : bits = [] := List.length_eq_zero_iff.1 (by simp at hl; omega)
    simp [validBits, this]
  | cons b bs =>
    simp only [validBits, h, hl]
    rw [Nat.add_sub_cancel, List.take_left']
    rfl

/-! ## The walk -/

/-- A path to a leaf, walked from its start, emits the leaf's symbol and goes on from the root (43_bit_decoder.md R141). -/
theorem walkBits_path {node : List Node} {root cur : NodeIdx} {c : Code} {s : Symbol} {f : Prio} {y : SymSet}
    (hc : c ≠ []) (h : followPath node cur c = some (.leaf s f y)) (bs : List Bit) :
    walkBits node root cur (c ++ bs) =
      (s :: (walkBits node root root bs).1, (walkBits node root root bs).2) := by
  induction c generalizing cur with
  | nil => exact absurd rfl hc
  | cons b c ih =>
    simp only [followPath] at h
    split at h
    · rename_i l r g z hn
      simp only [List.cons_append, walkBits, hn, walkMove]
      cases c with
      | nil =>
        simp only [followPath] at h
        simp [h]
      | cons b' c' =>
        have := ih (by simp) h
        simp only [followPath] at h
        split at h
        · rename_i l' r' g' z' hn'
          simpa [hn'] using this
        · simp at h
    · simp at h

/-- A walk over the codes of an input emits the input and ends at the root (44_container_format.md R166). -/
theorem walkBits_codes {ft : Table Count} {node : List Node} {root : NodeIdx} {t : HTree} {ct : Table Code}
    (hb : BuiltOk ft node root t) (hc : CodesFor ft node root t ct) (x : List Byte) (hx : allMapped ct x) :
    walkBits node root root (codeBits ct x) = (x, none) := by
  induction x with
  | nil => simp [codeBits, walkBits]
  | cons b bs ih =>
    have ih := ih fun d hd => hx d (by simp [hd])
    obtain ⟨c, hcb⟩ := Option.isSome_iff_exists.1 (hx b (by simp))
    simp only [codeBits, hcb, Option.getD_some]
    cases ht : hb.isTree with
    | leaf _ s f y hn =>
      have hs := hc.single s f rfl
      have hpres := hc.present b
      have hbs : b = s := by
        have hm := hb.perm.map Prod.fst
        have : b ∈ symbols ft := (mem_symbols ft b).2 (by rw [← hpres, hcb]; rfl)
        have h2 : symbols ft = (leafPairs (tablePairs ft)).map Prod.fst := by
          simp [symbols, leafPairs, Function.comp_def]
        rw [h2, ← hm.mem_iff] at this
        simpa [HTree.leaves] using this
      subst hbs
      obtain rfl : [false] = c := Option.some.inj (hs.symm.trans hcb)
      simp [walkBits, hn, walkMove, ih]
    | internal _ l r f y tl tr hn hl hr =>
      have hmem := (hc.path tl tr f rfl b c).1 hcb
      obtain ⟨g, z, hf⟩ := followPath_of_mem hb.isTree hmem
      have hne : c ≠ [] := List.ne_nil_of_length_pos (HTree.path_pos hmem)
      rw [walkBits_path hne hf, ih]

/-- A walk over a tree of the arena never meets an entry without a value: it ends well or with the truncation error
(43_bit_decoder.md R147). -/
theorem walkBits_stop {node : List Node} {root cur : NodeIdx} {t u : HTree} (hr : IsTree node root t)
    (hu : IsTree node cur u) (bs : List Bit) :
    (walkBits node root cur bs).2 = none ∨ (walkBits node root cur bs).2 = some (.raise .truncatedStream) := by
  induction bs generalizing cur u with
  | nil => simp only [walkBits]; split <;> simp
  | cons b bs ih =>
    cases hu with
    | leaf _ s f y hn => simpa [walkBits, hn, walkMove] using ih hr
    | internal _ l r f y tl tr hn hl hr' =>
      obtain ⟨v, hv⟩ : ∃ v, IsTree node (if b then r else l) v := by cases b <;> [exact ⟨tl, hl⟩; exact ⟨tr, hr'⟩]
      simp only [walkBits, hn, walkMove]
      cases hv with
      | leaf _ s f y hn' => simpa [hn'] using ih hr
      | internal _ l' r' f' y' tl' tr' hn' hl' hr'' =>
        simp only [hn']
        exact ih (.internal _ _ _ _ _ _ _ hn' hl' hr'')

/-- In a single-leaf tree every valid bit emits the symbol, whatever the bit is (43_bit_decoder.md R145). -/
theorem walkBits_single {node : List Node} {root : NodeIdx} {s : Symbol} {f : Prio} {y : SymSet}
    (h : nodeAt node root = some (.leaf s f y)) (bs : List Bit) :
    walkBits node root root bs = (List.replicate bs.length s, none) := by
  induction bs with
  | nil => simp [walkBits]
  | cons b bs ih => simp [walkBits, h, walkMove, ih, List.replicate_succ]

/-- What the decoding of a payload over a built tree can do: it ends well, or raises one of DECODE's two payload errors
(44_container_format.md R165). -/
theorem payloadUnpack_stop {node : List Node} {root : NodeIdx} {t : HTree} (h : IsTree node root t) (rest : List Byte) :
    (payloadUnpack node root rest).2 = none ∨
      ∃ r, (payloadUnpack node root rest).2 = some (.raise r) ∧ (r = .truncatedStream ∨ ∃ pad, r = .malformedPadding pad) := by
  cases rest with
  | nil => exact Or.inr ⟨_, rfl, Or.inl rfl⟩
  | cons b bs =>
    simp only [payloadUnpack, walkDecode]
    split
    · exact Or.inr ⟨_, rfl, Or.inr ⟨_, rfl⟩⟩
    · rcases walkBits_stop h h (validBits (b :: bs).dropLast ((b :: bs).getLast (List.cons_ne_nil b bs))) with h | h
      · exact Or.inl h
      · exact Or.inr ⟨_, h, Or.inl rfl⟩

theorem payloadUnpack_append (node : List Node) (root : NodeIdx) (p : List Byte) (pad : Byte) :
    payloadUnpack node root (p ++ [pad]) = walkDecode node root p pad := by
  cases p with
  | nil => rfl
  | cons b bs =>
    have : (b :: (bs ++ [pad])).dropLast = b :: bs := by rw [← List.cons_append, List.dropLast_concat]
    simp [payloadUnpack, this]

end Sys2Proof.Machine
end

