-- ==== Sys2Proof/Laws/State.lean ====
section
/-! SUPPORT. One lemma per field of the state per named update, true by unfolding, so that no proof unfolds an update; what
the delivery of a prefix can do; and the fields of a response word (spec/30_encoding.md R72). -/

namespace Sys2Proof.Machine

@[simp] theorem withFt_ft (t : Table Count) (s : State) : (withFt t s).ft = t := rfl
@[simp] theorem withFt_pq (t : Table Count) (s : State) : (withFt t s).pq = s.pq := rfl
@[simp] theorem withFt_node (t : Table Count) (s : State) : (withFt t s).node = s.node := rfl
@[simp] theorem withFt_nodeCount (t : Table Count) (s : State) : (withFt t s).nodeCount = s.nodeCount := rfl
@[simp] theorem withFt_root (t : Table Count) (s : State) : (withFt t s).root = s.root := rfl
@[simp] theorem withFt_treeValid (t : Table Count) (s : State) : (withFt t s).treeValid = s.treeValid := rfl
@[simp] theorem withFt_ct (t : Table Count) (s : State) : (withFt t s).ct = s.ct := rfl
@[simp] theorem withFt_inp (t : Table Count) (s : State) : (withFt t s).inp = s.inp := rfl
@[simp] theorem withFt_out (t : Table Count) (s : State) : (withFt t s).out = s.out := rfl
@[simp] theorem withFt_rsp (t : Table Count) (s : State) : (withFt t s).rsp = s.rsp := rfl
@[simp] theorem withFt_draws (t : Table Count) (s : State) : (withFt t s).draws = s.draws := rfl
@[simp] theorem withFt_moves (t : Table Count) (s : State) : (withFt t s).moves = s.moves := rfl
@[simp] theorem withFt_received (t : Table Count) (s : State) : (withFt t s).received = s.received := rfl
@[simp] theorem withFt_faultLog (t : Table Count) (s : State) : (withFt t s).faultLog = s.faultLog := rfl

@[simp] theorem withCt_ft (t : Table Code) (s : State) : (withCt t s).ft = s.ft := rfl
@[simp] theorem withCt_pq (t : Table Code) (s : State) : (withCt t s).pq = s.pq := rfl
@[simp] theorem withCt_node (t : Table Code) (s : State) : (withCt t s).node = s.node := rfl
@[simp] theorem withCt_nodeCount (t : Table Code) (s : State) : (withCt t s).nodeCount = s.nodeCount := rfl
@[simp] theorem withCt_root (t : Table Code) (s : State) : (withCt t s).root = s.root := rfl
@[simp] theorem withCt_treeValid (t : Table Code) (s : State) : (withCt t s).treeValid = s.treeValid := rfl
@[simp] theorem withCt_ct (t : Table Code) (s : State) : (withCt t s).ct = t := rfl
@[simp] theorem withCt_inp (t : Table Code) (s : State) : (withCt t s).inp = s.inp := rfl
@[simp] theorem withCt_out (t : Table Code) (s : State) : (withCt t s).out = s.out := rfl
@[simp] theorem withCt_rsp (t : Table Code) (s : State) : (withCt t s).rsp = s.rsp := rfl
@[simp] theorem withCt_draws (t : Table Code) (s : State) : (withCt t s).draws = s.draws := rfl
@[simp] theorem withCt_moves (t : Table Code) (s : State) : (withCt t s).moves = s.moves := rfl
@[simp] theorem withCt_received (t : Table Code) (s : State) : (withCt t s).received = s.received := rfl
@[simp] theorem withCt_faultLog (t : Table Code) (s : State) : (withCt t s).faultLog = s.faultLog := rfl

@[simp] theorem withPq_ft (q : List Entry) (s : State) : (withPq q s).ft = s.ft := rfl
@[simp] theorem withPq_pq (q : List Entry) (s : State) : (withPq q s).pq = q := rfl
@[simp] theorem withPq_node (q : List Entry) (s : State) : (withPq q s).node = s.node := rfl
@[simp] theorem withPq_nodeCount (q : List Entry) (s : State) : (withPq q s).nodeCount = s.nodeCount := rfl
@[simp] theorem withPq_root (q : List Entry) (s : State) : (withPq q s).root = s.root := rfl
@[simp] theorem withPq_treeValid (q : List Entry) (s : State) : (withPq q s).treeValid = s.treeValid := rfl
@[simp] theorem withPq_ct (q : List Entry) (s : State) : (withPq q s).ct = s.ct := rfl
@[simp] theorem withPq_inp (q : List Entry) (s : State) : (withPq q s).inp = s.inp := rfl
@[simp] theorem withPq_out (q : List Entry) (s : State) : (withPq q s).out = s.out := rfl
@[simp] theorem withPq_rsp (q : List Entry) (s : State) : (withPq q s).rsp = s.rsp := rfl
@[simp] theorem withPq_draws (q : List Entry) (s : State) : (withPq q s).draws = s.draws := rfl
@[simp] theorem withPq_moves (q : List Entry) (s : State) : (withPq q s).moves = s.moves := rfl
@[simp] theorem withPq_received (q : List Entry) (s : State) : (withPq q s).received = s.received := rfl
@[simp] theorem withPq_faultLog (q : List Entry) (s : State) : (withPq q s).faultLog = s.faultLog := rfl

@[simp] theorem clearFt_ft (s : State) : (clearFt s).ft = tableEmpty Count := rfl
@[simp] theorem clearFt_pq (s : State) : (clearFt s).pq = s.pq := rfl
@[simp] theorem clearFt_node (s : State) : (clearFt s).node = s.node := rfl
@[simp] theorem clearFt_nodeCount (s : State) : (clearFt s).nodeCount = s.nodeCount := rfl
@[simp] theorem clearFt_root (s : State) : (clearFt s).root = s.root := rfl
@[simp] theorem clearFt_treeValid (s : State) : (clearFt s).treeValid = s.treeValid := rfl
@[simp] theorem clearFt_ct (s : State) : (clearFt s).ct = s.ct := rfl
@[simp] theorem clearFt_inp (s : State) : (clearFt s).inp = s.inp := rfl
@[simp] theorem clearFt_out (s : State) : (clearFt s).out = s.out := rfl
@[simp] theorem clearFt_rsp (s : State) : (clearFt s).rsp = s.rsp := rfl
@[simp] theorem clearFt_draws (s : State) : (clearFt s).draws = s.draws := rfl
@[simp] theorem clearFt_moves (s : State) : (clearFt s).moves = s.moves := rfl
@[simp] theorem clearFt_received (s : State) : (clearFt s).received = s.received := rfl
@[simp] theorem clearFt_faultLog (s : State) : (clearFt s).faultLog = s.faultLog := rfl

@[simp] theorem clearTree_ft (s : State) : (clearTree s).ft = s.ft := rfl
@[simp] theorem clearTree_pq (s : State) : (clearTree s).pq = s.pq := rfl
@[simp] theorem clearTree_node (s : State) : (clearTree s).node = [] := rfl
@[simp] theorem clearTree_nodeCount (s : State) : (clearTree s).nodeCount = 0 := rfl
@[simp] theorem clearTree_root (s : State) : (clearTree s).root = none := rfl
@[simp] theorem clearTree_treeValid (s : State) : (clearTree s).treeValid = false := rfl
@[simp] theorem clearTree_ct (s : State) : (clearTree s).ct = s.ct := rfl
@[simp] theorem clearTree_inp (s : State) : (clearTree s).inp = s.inp := rfl
@[simp] theorem clearTree_out (s : State) : (clearTree s).out = s.out := rfl
@[simp] theorem clearTree_rsp (s : State) : (clearTree s).rsp = s.rsp := rfl
@[simp] theorem clearTree_draws (s : State) : (clearTree s).draws = s.draws := rfl
@[simp] theorem clearTree_moves (s : State) : (clearTree s).moves = s.moves := rfl
@[simp] theorem clearTree_received (s : State) : (clearTree s).received = s.received := rfl
@[simp] theorem clearTree_faultLog (s : State) : (clearTree s).faultLog = s.faultLog := rfl

@[simp] theorem clearCt_ft (s : State) : (clearCt s).ft = s.ft := rfl
@[simp] theorem clearCt_pq (s : State) : (clearCt s).pq = s.pq := rfl
@[simp] theorem clearCt_node (s : State) : (clearCt s).node = s.node := rfl
@[simp] theorem clearCt_nodeCount (s : State) : (clearCt s).nodeCount = s.nodeCount := rfl
@[simp] theorem clearCt_root (s : State) : (clearCt s).root = s.root := rfl
@[simp] theorem clearCt_treeValid (s : State) : (clearCt s).treeValid = s.treeValid := rfl
@[simp] theorem clearCt_ct (s : State) : (clearCt s).ct = tableEmpty Code := rfl
@[simp] theorem clearCt_inp (s : State) : (clearCt s).inp = s.inp := rfl
@[simp] theorem clearCt_out (s : State) : (clearCt s).out = s.out := rfl
@[simp] theorem clearCt_rsp (s : State) : (clearCt s).rsp = s.rsp := rfl
@[simp] theorem clearCt_draws (s : State) : (clearCt s).draws = s.draws := rfl
@[simp] theorem clearCt_moves (s : State) : (clearCt s).moves = s.moves := rfl
@[simp] theorem clearCt_received (s : State) : (clearCt s).received = s.received := rfl
@[simp] theorem clearCt_faultLog (s : State) : (clearCt s).faultLog = s.faultLog := rfl

@[simp] theorem clearDerived_ft (s : State) : (clearDerived s).ft = s.ft := rfl
@[simp] theorem clearDerived_pq (s : State) : (clearDerived s).pq = s.pq := rfl
@[simp] theorem clearDerived_node (s : State) : (clearDerived s).node = [] := rfl
@[simp] theorem clearDerived_nodeCount (s : State) : (clearDerived s).nodeCount = 0 := rfl
@[simp] theorem clearDerived_root (s : State) : (clearDerived s).root = none := rfl
@[simp] theorem clearDerived_treeValid (s : State) : (clearDerived s).treeValid = false := rfl
@[simp] theorem clearDerived_ct (s : State) : (clearDerived s).ct = tableEmpty Code := rfl
@[simp] theorem clearDerived_inp (s : State) : (clearDerived s).inp = s.inp := rfl
@[simp] theorem clearDerived_out (s : State) : (clearDerived s).out = s.out := rfl
@[simp] theorem clearDerived_rsp (s : State) : (clearDerived s).rsp = s.rsp := rfl
@[simp] theorem clearDerived_draws (s : State) : (clearDerived s).draws = s.draws := rfl
@[simp] theorem clearDerived_moves (s : State) : (clearDerived s).moves = s.moves := rfl
@[simp] theorem clearDerived_received (s : State) : (clearDerived s).received = s.received := rfl
@[simp] theorem clearDerived_faultLog (s : State) : (clearDerived s).faultLog = s.faultLog := rfl

@[simp] theorem clearPq_ft (s : State) : (clearPq s).ft = s.ft := rfl
@[simp] theorem clearPq_pq (s : State) : (clearPq s).pq = [] := rfl
@[simp] theorem clearPq_node (s : State) : (clearPq s).node = s.node := rfl
@[simp] theorem clearPq_nodeCount (s : State) : (clearPq s).nodeCount = s.nodeCount := rfl
@[simp] theorem clearPq_root (s : State) : (clearPq s).root = s.root := rfl
@[simp] theorem clearPq_treeValid (s : State) : (clearPq s).treeValid = s.treeValid := rfl
@[simp] theorem clearPq_ct (s : State) : (clearPq s).ct = s.ct := rfl
@[simp] theorem clearPq_inp (s : State) : (clearPq s).inp = s.inp := rfl
@[simp] theorem clearPq_out (s : State) : (clearPq s).out = s.out := rfl
@[simp] theorem clearPq_rsp (s : State) : (clearPq s).rsp = s.rsp := rfl
@[simp] theorem clearPq_draws (s : State) : (clearPq s).draws = s.draws := rfl
@[simp] theorem clearPq_moves (s : State) : (clearPq s).moves = s.moves := rfl
@[simp] theorem clearPq_received (s : State) : (clearPq s).received = s.received := rfl
@[simp] theorem clearPq_faultLog (s : State) : (clearPq s).faultLog = s.faultLog := rfl

@[simp] theorem consumeIn_ft (s : State) : (consumeIn s).ft = s.ft := rfl
@[simp] theorem consumeIn_pq (s : State) : (consumeIn s).pq = s.pq := rfl
@[simp] theorem consumeIn_node (s : State) : (consumeIn s).node = s.node := rfl
@[simp] theorem consumeIn_nodeCount (s : State) : (consumeIn s).nodeCount = s.nodeCount := rfl
@[simp] theorem consumeIn_root (s : State) : (consumeIn s).root = s.root := rfl
@[simp] theorem consumeIn_treeValid (s : State) : (consumeIn s).treeValid = s.treeValid := rfl
@[simp] theorem consumeIn_ct (s : State) : (consumeIn s).ct = s.ct := rfl
@[simp] theorem consumeIn_inp (s : State) : (consumeIn s).inp = [] := rfl
@[simp] theorem consumeIn_out (s : State) : (consumeIn s).out = s.out := rfl
@[simp] theorem consumeIn_rsp (s : State) : (consumeIn s).rsp = s.rsp := rfl
@[simp] theorem consumeIn_draws (s : State) : (consumeIn s).draws = s.draws := rfl
@[simp] theorem consumeIn_moves (s : State) : (consumeIn s).moves = s.moves := rfl
@[simp] theorem consumeIn_received (s : State) : (consumeIn s).received = s.received := rfl
@[simp] theorem consumeIn_faultLog (s : State) : (consumeIn s).faultLog = s.faultLog := rfl

@[simp] theorem deliver_ft (e : List Byte) (s : State) : (deliver e s).ft = s.ft := rfl
@[simp] theorem deliver_pq (e : List Byte) (s : State) : (deliver e s).pq = s.pq := rfl
@[simp] theorem deliver_node (e : List Byte) (s : State) : (deliver e s).node = s.node := rfl
@[simp] theorem deliver_nodeCount (e : List Byte) (s : State) : (deliver e s).nodeCount = s.nodeCount := rfl
@[simp] theorem deliver_root (e : List Byte) (s : State) : (deliver e s).root = s.root := rfl
@[simp] theorem deliver_treeValid (e : List Byte) (s : State) : (deliver e s).treeValid = s.treeValid := rfl
@[simp] theorem deliver_ct (e : List Byte) (s : State) : (deliver e s).ct = s.ct := rfl
@[simp] theorem deliver_inp (e : List Byte) (s : State) : (deliver e s).inp = s.inp := rfl
@[simp] theorem deliver_out (e : List Byte) (s : State) : (deliver e s).out = s.out ++ e := rfl
@[simp] theorem deliver_rsp (e : List Byte) (s : State) : (deliver e s).rsp = s.rsp := rfl
@[simp] theorem deliver_draws (e : List Byte) (s : State) : (deliver e s).draws = s.draws := rfl
@[simp] theorem deliver_moves (e : List Byte) (s : State) : (deliver e s).moves = s.moves := rfl
@[simp] theorem deliver_received (e : List Byte) (s : State) : (deliver e s).received = s.received := rfl
@[simp] theorem deliver_faultLog (e : List Byte) (s : State) : (deliver e s).faultLog = s.faultLog := rfl

@[simp] theorem respond_ft (tie : Tie) (val : Val) (prio : Prio) (s : State) : (respond tie val prio s).ft = s.ft := rfl
@[simp] theorem respond_pq (tie : Tie) (val : Val) (prio : Prio) (s : State) : (respond tie val prio s).pq = s.pq := rfl
@[simp] theorem respond_node (tie : Tie) (val : Val) (prio : Prio) (s : State) : (respond tie val prio s).node = s.node := rfl
@[simp] theorem respond_nodeCount (tie : Tie) (val : Val) (prio : Prio) (s : State) : (respond tie val prio s).nodeCount = s.nodeCount := rfl
@[simp] theorem respond_root (tie : Tie) (val : Val) (prio : Prio) (s : State) : (respond tie val prio s).root = s.root := rfl
@[simp] theorem respond_treeValid (tie : Tie) (val : Val) (prio : Prio) (s : State) : (respond tie val prio s).treeValid = s.treeValid := rfl
@[simp] theorem respond_ct (tie : Tie) (val : Val) (prio : Prio) (s : State) : (respond tie val prio s).ct = s.ct := rfl
@[simp] theorem respond_inp (tie : Tie) (val : Val) (prio : Prio) (s : State) : (respond tie val prio s).inp = s.inp := rfl
@[simp] theorem respond_out (tie : Tie) (val : Val) (prio : Prio) (s : State) : (respond tie val prio s).out = s.out := rfl
@[simp] theorem respond_rsp (tie : Tie) (val : Val) (prio : Prio) (s : State) : (respond tie val prio s).rsp = responseWord statusOk tie val prio := rfl
@[simp] theorem respond_draws (tie : Tie) (val : Val) (prio : Prio) (s : State) : (respond tie val prio s).draws = s.draws := rfl
@[simp] theorem respond_moves (tie : Tie) (val : Val) (prio : Prio) (s : State) : (respond tie val prio s).moves = s.moves := rfl
@[simp] theorem respond_received (tie : Tie) (val : Val) (prio : Prio) (s : State) : (respond tie val prio s).received = s.received := rfl
@[simp] theorem respond_faultLog (tie : Tie) (val : Val) (prio : Prio) (s : State) : (respond tie val prio s).faultLog = s.faultLog := rfl

@[simp] theorem respondOk_ft (s : State) : (respondOk s).ft = s.ft := rfl
@[simp] theorem respondOk_pq (s : State) : (respondOk s).pq = s.pq := rfl
@[simp] theorem respondOk_node (s : State) : (respondOk s).node = s.node := rfl
@[simp] theorem respondOk_nodeCount (s : State) : (respondOk s).nodeCount = s.nodeCount := rfl
@[simp] theorem respondOk_root (s : State) : (respondOk s).root = s.root := rfl
@[simp] theorem respondOk_treeValid (s : State) : (respondOk s).treeValid = s.treeValid := rfl
@[simp] theorem respondOk_ct (s : State) : (respondOk s).ct = s.ct := rfl
@[simp] theorem respondOk_inp (s : State) : (respondOk s).inp = s.inp := rfl
@[simp] theorem respondOk_out (s : State) : (respondOk s).out = s.out := rfl
@[simp] theorem respondOk_rsp (s : State) : (respondOk s).rsp = responseWord statusOk 0 0 0 := rfl
@[simp] theorem respondOk_draws (s : State) : (respondOk s).draws = s.draws := rfl
@[simp] theorem respondOk_moves (s : State) : (respondOk s).moves = s.moves := rfl
@[simp] theorem respondOk_received (s : State) : (respondOk s).received = s.received := rfl
@[simp] theorem respondOk_faultLog (s : State) : (respondOk s).faultLog = s.faultLog := rfl

@[simp] theorem raise_ft (r : Raise) (s : State) : (raise r s).ft = s.ft := rfl
@[simp] theorem raise_pq (r : Raise) (s : State) : (raise r s).pq = s.pq := rfl
@[simp] theorem raise_node (r : Raise) (s : State) : (raise r s).node = s.node := rfl
@[simp] theorem raise_nodeCount (r : Raise) (s : State) : (raise r s).nodeCount = s.nodeCount := rfl
@[simp] theorem raise_root (r : Raise) (s : State) : (raise r s).root = s.root := rfl
@[simp] theorem raise_treeValid (r : Raise) (s : State) : (raise r s).treeValid = s.treeValid := rfl
@[simp] theorem raise_ct (r : Raise) (s : State) : (raise r s).ct = s.ct := rfl
@[simp] theorem raise_inp (r : Raise) (s : State) : (raise r s).inp = s.inp := rfl
@[simp] theorem raise_out (r : Raise) (s : State) : (raise r s).out = s.out := rfl
@[simp] theorem raise_rsp (r : Raise) (s : State) : (raise r s).rsp = responseWord (statusCode r) (raiseInfo r) 0 0 := rfl
@[simp] theorem raise_draws (r : Raise) (s : State) : (raise r s).draws = s.draws := rfl
@[simp] theorem raise_moves (r : Raise) (s : State) : (raise r s).moves = s.moves := rfl
@[simp] theorem raise_received (r : Raise) (s : State) : (raise r s).received = s.received := rfl
@[simp] theorem raise_faultLog (r : Raise) (s : State) : (raise r s).faultLog = s.faultLog ++ [statusCode r] := rfl

@[simp] theorem decodeStart_ft (s : State) : (decodeStart s).ft = tableEmpty Count := rfl
@[simp] theorem decodeStart_pq (s : State) : (decodeStart s).pq = [] := rfl
@[simp] theorem decodeStart_node (s : State) : (decodeStart s).node = [] := rfl
@[simp] theorem decodeStart_nodeCount (s : State) : (decodeStart s).nodeCount = 0 := rfl
@[simp] theorem decodeStart_root (s : State) : (decodeStart s).root = none := rfl
@[simp] theorem decodeStart_treeValid (s : State) : (decodeStart s).treeValid = false := rfl
@[simp] theorem decodeStart_ct (s : State) : (decodeStart s).ct = tableEmpty Code := rfl
@[simp] theorem decodeStart_inp (s : State) : (decodeStart s).inp = s.inp := rfl
@[simp] theorem decodeStart_out (s : State) : (decodeStart s).out = s.out := rfl
@[simp] theorem decodeStart_rsp (s : State) : (decodeStart s).rsp = s.rsp := rfl
@[simp] theorem decodeStart_draws (s : State) : (decodeStart s).draws = s.draws := rfl
@[simp] theorem decodeStart_moves (s : State) : (decodeStart s).moves = s.moves := rfl
@[simp] theorem decodeStart_received (s : State) : (decodeStart s).received = s.received := rfl
@[simp] theorem decodeStart_faultLog (s : State) : (decodeStart s).faultLog = s.faultLog := rfl

@[simp] theorem inAppend_ft (e : List Byte) (s : State) : (inAppend e s).ft = s.ft := rfl
@[simp] theorem inAppend_pq (e : List Byte) (s : State) : (inAppend e s).pq = s.pq := rfl
@[simp] theorem inAppend_node (e : List Byte) (s : State) : (inAppend e s).node = s.node := rfl
@[simp] theorem inAppend_nodeCount (e : List Byte) (s : State) : (inAppend e s).nodeCount = s.nodeCount := rfl
@[simp] theorem inAppend_root (e : List Byte) (s : State) : (inAppend e s).root = s.root := rfl
@[simp] theorem inAppend_treeValid (e : List Byte) (s : State) : (inAppend e s).treeValid = s.treeValid := rfl
@[simp] theorem inAppend_ct (e : List Byte) (s : State) : (inAppend e s).ct = s.ct := rfl
@[simp] theorem inAppend_inp (e : List Byte) (s : State) : (inAppend e s).inp = s.inp ++ e := rfl
@[simp] theorem inAppend_out (e : List Byte) (s : State) : (inAppend e s).out = s.out := rfl
@[simp] theorem inAppend_rsp (e : List Byte) (s : State) : (inAppend e s).rsp = s.rsp := rfl
@[simp] theorem inAppend_draws (e : List Byte) (s : State) : (inAppend e s).draws = s.draws := rfl
@[simp] theorem inAppend_moves (e : List Byte) (s : State) : (inAppend e s).moves = s.moves := rfl
@[simp] theorem inAppend_received (e : List Byte) (s : State) : (inAppend e s).received = s.received := rfl
@[simp] theorem inAppend_faultLog (e : List Byte) (s : State) : (inAppend e s).faultLog = s.faultLog := rfl

@[simp] theorem placeCommand_ft (d : Descriptor) (s : State) : (placeCommand d s).ft = s.ft := rfl
@[simp] theorem placeCommand_pq (d : Descriptor) (s : State) : (placeCommand d s).pq = s.pq := rfl
@[simp] theorem placeCommand_node (d : Descriptor) (s : State) : (placeCommand d s).node = s.node := rfl
@[simp] theorem placeCommand_nodeCount (d : Descriptor) (s : State) : (placeCommand d s).nodeCount = s.nodeCount := rfl
@[simp] theorem placeCommand_root (d : Descriptor) (s : State) : (placeCommand d s).root = s.root := rfl
@[simp] theorem placeCommand_treeValid (d : Descriptor) (s : State) : (placeCommand d s).treeValid = s.treeValid := rfl
@[simp] theorem placeCommand_ct (d : Descriptor) (s : State) : (placeCommand d s).ct = s.ct := rfl
@[simp] theorem placeCommand_inp (d : Descriptor) (s : State) : (placeCommand d s).inp = s.inp := rfl
@[simp] theorem placeCommand_out (d : Descriptor) (s : State) : (placeCommand d s).out = s.out := rfl
@[simp] theorem placeCommand_rsp (d : Descriptor) (s : State) : (placeCommand d s).rsp = s.rsp := rfl
@[simp] theorem placeCommand_draws (d : Descriptor) (s : State) : (placeCommand d s).draws = s.draws := rfl
@[simp] theorem placeCommand_moves (d : Descriptor) (s : State) : (placeCommand d s).moves = .command d :: s.moves := rfl
@[simp] theorem placeCommand_received (d : Descriptor) (s : State) : (placeCommand d s).received = s.received := rfl
@[simp] theorem placeCommand_faultLog (d : Descriptor) (s : State) : (placeCommand d s).faultLog = s.faultLog := rfl

@[simp] theorem builtState_ft (n : List Node) (i : NodeIdx) (s : State) : (builtState n i s).ft = s.ft := rfl
@[simp] theorem builtState_pq (n : List Node) (i : NodeIdx) (s : State) : (builtState n i s).pq = [] := rfl
@[simp] theorem builtState_node (n : List Node) (i : NodeIdx) (s : State) : (builtState n i s).node = n := rfl
@[simp] theorem builtState_nodeCount (n : List Node) (i : NodeIdx) (s : State) : (builtState n i s).nodeCount = n.length := rfl
@[simp] theorem builtState_root (n : List Node) (i : NodeIdx) (s : State) : (builtState n i s).root = some i := rfl
@[simp] theorem builtState_treeValid (n : List Node) (i : NodeIdx) (s : State) : (builtState n i s).treeValid = true := rfl
@[simp] theorem builtState_ct (n : List Node) (i : NodeIdx) (s : State) : (builtState n i s).ct = tableEmpty Code := rfl
@[simp] theorem builtState_inp (n : List Node) (i : NodeIdx) (s : State) : (builtState n i s).inp = s.inp := rfl
@[simp] theorem builtState_out (n : List Node) (i : NodeIdx) (s : State) : (builtState n i s).out = s.out := rfl
@[simp] theorem builtState_rsp (n : List Node) (i : NodeIdx) (s : State) : (builtState n i s).rsp = s.rsp := rfl
@[simp] theorem builtState_draws (n : List Node) (i : NodeIdx) (s : State) : (builtState n i s).draws = s.draws := rfl
@[simp] theorem builtState_moves (n : List Node) (i : NodeIdx) (s : State) : (builtState n i s).moves = s.moves := rfl
@[simp] theorem builtState_received (n : List Node) (i : NodeIdx) (s : State) : (builtState n i s).received = s.received := rfl
@[simp] theorem builtState_faultLog (n : List Node) (i : NodeIdx) (s : State) : (builtState n i s).faultLog = s.faultLog := rfl

@[simp] theorem resetBlock_ft (s : State) : (resetBlock s).ft = tableEmpty Count := rfl
@[simp] theorem resetBlock_pq (s : State) : (resetBlock s).pq = [] := rfl
@[simp] theorem resetBlock_node (s : State) : (resetBlock s).node = [] := rfl
@[simp] theorem resetBlock_nodeCount (s : State) : (resetBlock s).nodeCount = 0 := rfl
@[simp] theorem resetBlock_root (s : State) : (resetBlock s).root = none := rfl
@[simp] theorem resetBlock_treeValid (s : State) : (resetBlock s).treeValid = false := rfl
@[simp] theorem resetBlock_ct (s : State) : (resetBlock s).ct = tableEmpty Code := rfl
@[simp] theorem resetBlock_inp (s : State) : (resetBlock s).inp = [] := rfl
@[simp] theorem resetBlock_out (s : State) : (resetBlock s).out = [] := rfl
@[simp] theorem resetBlock_rsp (s : State) : (resetBlock s).rsp = 0 := rfl
@[simp] theorem resetBlock_draws (s : State) : (resetBlock s).draws = s.draws := rfl
@[simp] theorem resetBlock_moves (s : State) : (resetBlock s).moves = s.moves := rfl
@[simp] theorem resetBlock_received (s : State) : (resetBlock s).received = s.received := rfl
@[simp] theorem resetBlock_faultLog (s : State) : (resetBlock s).faultLog = s.faultLog := rfl

@[simp] theorem deliverPrefix_ft (e : List Byte) (s : State) : (deliverPrefix e s).ft = s.ft := by
  cases e <;> rfl
@[simp] theorem deliverPrefix_pq (e : List Byte) (s : State) : (deliverPrefix e s).pq = s.pq := by
  cases e <;> rfl
@[simp] theorem deliverPrefix_node (e : List Byte) (s : State) : (deliverPrefix e s).node = s.node := by
  cases e <;> rfl
@[simp] theorem deliverPrefix_nodeCount (e : List Byte) (s : State) : (deliverPrefix e s).nodeCount = s.nodeCount := by
  cases e <;> rfl
@[simp] theorem deliverPrefix_root (e : List Byte) (s : State) : (deliverPrefix e s).root = s.root := by
  cases e <;> rfl
@[simp] theorem deliverPrefix_treeValid (e : List Byte) (s : State) : (deliverPrefix e s).treeValid = s.treeValid := by
  cases e <;> rfl
@[simp] theorem deliverPrefix_ct (e : List Byte) (s : State) : (deliverPrefix e s).ct = s.ct := by
  cases e <;> rfl
@[simp] theorem deliverPrefix_inp (e : List Byte) (s : State) : (deliverPrefix e s).inp = s.inp := by
  cases e <;> rfl
@[simp] theorem deliverPrefix_rsp (e : List Byte) (s : State) : (deliverPrefix e s).rsp = s.rsp := by
  cases e <;> rfl
@[simp] theorem deliverPrefix_moves (e : List Byte) (s : State) : (deliverPrefix e s).moves = s.moves := by
  cases e <;> rfl
@[simp] theorem deliverPrefix_received (e : List Byte) (s : State) : (deliverPrefix e s).received = s.received := by
  cases e <;> rfl
@[simp] theorem deliverPrefix_faultLog (e : List Byte) (s : State) : (deliverPrefix e s).faultLog = s.faultLog := by
  cases e <;> rfl

@[simp] theorem deliverPrefix_nil (s : State) : deliverPrefix [] s = s := rfl

/-- Delivering a prefix changes `OUT` by some prefix of the emission, and the count of draws (20_memory.md R54). -/
theorem deliverPrefix_spec (e : List Byte) (s : State) :
    ∃ k d, deliverPrefix e s = { s with out := s.out ++ e.take k, draws := d } := by
  cases e with
  | nil => exact ⟨0, s.draws, by simp⟩
  | cons b bs => exact ⟨_, _, rfl⟩

/-! ## The response word -/

@[simp] theorem rspStatus_word (st : Byte) (t : Tie) (v : Val) (p : Prio) : rspStatus (responseWord st t v p) = st := by
  simp only [rspStatus, responseWord]; ext i hi; grind

@[simp] theorem rspTie_word (st : Byte) (t : Tie) (v : Val) (p : Prio) : rspTie (responseWord st t v p) = t := by
  simp only [rspTie, responseWord]; ext i hi; grind

@[simp] theorem rspVal_word (st : Byte) (t : Tie) (v : Val) (p : Prio) : rspVal (responseWord st t v p) = v := by
  simp only [rspVal, responseWord]; ext i hi; grind

@[simp] theorem rspZero_word (st : Byte) (t : Tie) (v : Val) (p : Prio) : rspZero (responseWord st t v p) = 0 := by
  simp only [rspZero, responseWord]; ext i hi; grind

@[simp] theorem rspPrio_word (st : Byte) (t : Tie) (v : Val) (p : Prio) : rspPrio (responseWord st t v p) = p := by
  simp only [rspPrio, responseWord]; ext i hi; grind

/-- Every response word the block writes is well-formed (60_exceptions.md R181). -/
theorem responseOk_raise (r : Raise) (v : Val) (p : Prio) : responseOk (responseWord (statusCode r) (raiseInfo r) v p) := by
  refine ⟨?_, by simp⟩
  rw [rspStatus_word]
  cases r <;> simp [statusCode, statusValues]

theorem responseOk_ok (t : Tie) (v : Val) (p : Prio) : responseOk (responseWord statusOk t v p) := by
  refine ⟨?_, by simp⟩
  rw [rspStatus_word]; simp [statusOk, statusValues]

/-- No error has the status `OK` (60_exceptions.md R180). -/
theorem statusCode_ne_ok (r : Raise) : statusCode r ≠ statusOk := by cases r <;> simp [statusCode, statusOk]

end Sys2Proof.Machine
end

