-- ==== Sys2Proof/Laws/Exec.lean ====
section
/-! SUPPORT. What each command can do, said once: the equations of the commands whose effect is one update, and for
BUILD_TREE, BUILD_CODES, ENCODE and DECODE the cases their meaning can end in. -/

namespace Sys2Proof.Machine

/-! ## BUILD_TREE -/

theorem rootNode_built {ft : Table Count} {node : List Node} {root : NodeIdx} {t : HTree} (h : BuiltOk ft node root t)
    (s : State) : ∃ n, rootNode (builtState node root s) = some n ∧ nodeFreq n = t.freq := by
  obtain ⟨n, h1, h2⟩ := h.isTree.nodeAt
  exact ⟨n, by simp [rootNode, h1], h2⟩

/-- What BUILD_TREE can do (41_tree_build.md R119). -/
theorem execBuildTree_cases (s : State) :
    (tablePairs s.ft = [] ∧ execBuildTree s = .next (raise .emptyInput s)) ∨
    ∃ node root t, BuiltOk s.ft node root t ∧
      execBuildTree s = .next (respond 0 (valOfIndex node.length) t.freq (builtState node root s)) := by
  rcases buildTree_cases Config.childOrder s with ⟨h1, h2⟩ | ⟨node, root, t, h1, h2⟩
  · exact Or.inl ⟨h1, by simp [execBuildTree, h2, stopWith]⟩
  · obtain ⟨n, h3, h4⟩ := rootNode_built h1 s
    exact Or.inr ⟨node, root, t, h1, by simp [execBuildTree, h2, h3, h4]⟩

/-- On a table that is not empty the arena BUILD_TREE leaves is a function of the table alone (41_tree_build.md R120). -/
theorem execBuildTree_ok (ft : Table Count) (hne : tablePairs ft ≠ []) :
    ∃ node root t, BuiltOk ft node root t ∧ (∀ s : State, s.ft = ft → execBuildTree s =
      .next (respond 0 (valOfIndex node.length) t.freq (builtState node root s))) ∧
      ∀ s : State, s.ft = ft → buildTree Config.childOrder s = .ok (builtState node root s) := by
  obtain ⟨node, root, t, h1, h2, _⟩ := buildTree_ok Config.childOrder ft hne
  refine ⟨node, root, t, h1, fun s hs => ?_, h2⟩
  obtain ⟨n, h3, h4⟩ := rootNode_built h1 s
  simp [execBuildTree, h2 s hs, h3, h4]

/-- The arena built from a table in a fresh block is the one built in any block (10_state.md R41). -/
theorem builtFrom_eq {ft : Table Count} {node : List Node} {root : NodeIdx} {s : State} (hs : s.ft = ft)
    (h : buildTree Config.childOrder s = .ok (builtState node root s)) : builtFrom ft = some (node, root) := by
  have hne : tablePairs ft ≠ [] := by
    intro hc
    rw [buildTree_empty _ _ (hs ▸ hc)] at h
    cases h
  obtain ⟨node', root', t, h1, h2, _⟩ := buildTree_ok Config.childOrder ft hne
  have h3 := h2 s hs
  rw [h] at h3
  have h4 := Except.ok.inj h3
  have hn : node = node' := congrArg State.node h4
  have hr : some root = some root' := congrArg State.root h4
  have := h2 { State.reset with ft := ft } rfl
  simp [builtFrom, this, hn, Option.some.inj hr]

/-- What is known where an arena was built from a table. -/
theorem builtFrom_spec {ft : Table Count} {node : List Node} {root : NodeIdx} (h : builtFrom ft = some (node, root)) :
    tablePairs ft ≠ [] ∧ ∃ t, BuiltOk ft node root t := by
  simp only [builtFrom] at h
  rcases buildTree_cases Config.childOrder { State.reset with ft := ft } with ⟨_, h2⟩ | ⟨node', root', t, h1, h2⟩
  · simp [h2] at h
  · rw [h2] at h
    simp only [builtState_root, Option.map_some, builtState_node, Option.some.injEq, Prod.mk.injEq] at h
    obtain ⟨rfl, rfl⟩ := h
    refine ⟨fun hc => ?_, t, h1⟩
    have := h1.count
    rw [hc] at this
    simp at this

/-! ## BUILD_CODES -/

/-- BUILD_CODES where the tree is what the builder leaves (42_code_derivation.md R133). -/
theorem execBuildCodes_ok {s : State} (h : treeOk s) :
    ∃ ct, buildCodes s = .ok ct ∧ execBuildCodes s = .next (respondOk (withCt ct s)) ∧
      (s.treeValid = false → ct = tableEmpty Code) ∧
      ∀ r, s.root = some r → ∃ t, BuiltOk s.ft s.node r t ∧ CodesFor s.ft s.node r t ct := by
  cases hv : s.treeValid with
  | false =>
    simp only [treeOk, hv] at h
    have : buildCodes s = .ok (tableEmpty Code) := by simp [buildCodes, hv]
    exact ⟨_, this, by simp only [execBuildCodes, this], fun _ => rfl, fun r hr => by simp [h.2.2] at hr⟩
  | true =>
    simp only [treeOk, hv] at h
    obtain ⟨_, r, hr, hb⟩ := h
    obtain ⟨_, t, ht⟩ := builtFrom_spec hb
    obtain ⟨ct, hc, hcf⟩ := treeCodes_ok ht
    have : buildCodes s = .ok ct := by simp [buildCodes, hv, hr, hc]
    exact ⟨ct, this, by simp only [execBuildCodes, this], by simp, fun r' hr' => by
      obtain rfl : r = r' := Option.some.inj (hr.symm.trans hr'); exact ⟨t, ht, hcf⟩⟩

/-! ## ENCODE -/

/-- What ENCODE can do (44_container_format.md R164). -/
theorem execEncode_cases (s : State) :
    (allMapped s.ct s.inp ∧ ∃ p pad, payloadPack s.ct s.inp = (p ++ [pad], none) ∧
      execEncode s = .next (respondOk (deliver (hdrSerialize s.ft ++ (p ++ [pad])) (consumeIn s)))) ∨
    ∃ sym p, sym ∈ s.inp ∧ tableGet s.ct sym = none ∧ payloadPack s.ct s.inp = (p, some (.unmappedSymbol sym)) ∧
      execEncode s = .next (raise (.unmappedSymbol sym) (deliverPrefix (hdrSerialize s.ft ++ p) (consumeIn s))) := by
  rcases payloadPack_cases s.ct s.inp with ⟨h, p, pad, hp⟩ | ⟨sym, p, h1, h2, hp⟩
  · exact Or.inl ⟨h, p, pad, hp, by simp [execEncode, encodeEmission, hp]⟩
  · exact Or.inr ⟨sym, p, h1, h2, hp, by simp [execEncode, encodeEmission, hp]⟩

/-! ## DECODE -/

/-- The state DECODE has when its header is read and its tree built (44_container_format.md R165). -/
def decodeBuilt (ft : Table Count) (node : List Node) (root : NodeIdx) (s : State) : State :=
  builtState node root (withFt ft (consumeIn (decodeStart s)))

/-- What DECODE can do (44_container_format.md R165, 60_exceptions.md R196). -/
theorem execDecode_cases (s : State) :
    (∃ r, hdrParse s.inp = .error r ∧ r = .invalidHeaderToken ∧
      execDecode s = .next (raise .invalidHeaderToken (consumeIn (decodeStart s)))) ∨
    (∃ ft rest, hdrParse s.inp = .ok (ft, rest) ∧ tablePairs ft = [] ∧
      execDecode s = .next (raise .emptyInput (withFt ft (consumeIn (decodeStart s))))) ∨
    ∃ ft rest node root t, hdrParse s.inp = .ok (ft, rest) ∧ BuiltOk ft node root t ∧
      builtFrom ft = some (node, root) ∧
      (((payloadUnpack node root rest).2 = none ∧
        execDecode s = .next (respondOk (deliver (payloadUnpack node root rest).1 (decodeBuilt ft node root s)))) ∨
      ∃ r, (payloadUnpack node root rest).2 = some (.raise r) ∧ (r = .truncatedStream ∨ ∃ pad, r = .malformedPadding pad) ∧
        execDecode s =
          .next (raise r (deliverPrefix (payloadUnpack node root rest).1 (decodeBuilt ft node root s)))) := by
  cases hp : hdrParse s.inp with
  | error r =>
    have := hdrParseFrom_error hp
    subst this
    exact Or.inl ⟨_, rfl, rfl, by simp [execDecode, hp]⟩
  | ok q =>
    obtain ⟨ft, rest⟩ := q
    refine Or.inr ?_
    rcases buildTree_cases Config.childOrder (withFt ft (consumeIn (decodeStart s))) with ⟨h1, h2⟩ | ⟨node, root, t, h1, h2⟩
    · exact Or.inl ⟨ft, rest, rfl, h1, by simp [execDecode, hp, h2, stopWith]⟩
    · refine Or.inr ⟨ft, rest, node, root, t, rfl, h1, builtFrom_eq rfl h2, ?_⟩
      rcases payloadUnpack_stop h1.isTree rest with h3 | ⟨r, h3, h4⟩
      · refine Or.inl ⟨h3, ?_⟩
        simp only [execDecode, hp, h2, decodePayload, builtState_root, builtState_node]
        rw [show payloadUnpack node root rest = ((payloadUnpack node root rest).1, none) from Prod.ext rfl h3]
        rfl
      · refine Or.inr ⟨r, h3, h4, ?_⟩
        simp only [execDecode, hp, h2, decodePayload, builtState_root, builtState_node]
        rw [show payloadUnpack node root rest = ((payloadUnpack node root rest).1, some (.raise r)) from Prod.ext rfl h3]
        rfl

end Sys2Proof.Machine
end

