-- ==== Sys2Proof/Laws/PerInstr.lean ====
section
/-! SUPPORT. Statements for all commands, one lemma per constructor: a command's descriptor is well-formed and selects the
command's own row of the opcode map (spec/30_encoding.md R71, R74). -/

namespace Sys2Proof.Laws.MatchesRow

/-- The descriptor of `i` passes every legality check and selects the row of `i` (30_encoding.md R71, R74). -/
def Statement (i : Instr) : Prop := i.format.wellFormed = true ∧ i.row.selects (encode i) = true

theorem pqClear : Statement .pqClear := by unfold Statement; decide

theorem pqPush (prio : Prio) (tie : Tie) (val : Val) : Statement (.pqPush prio tie val) := by
  refine ⟨rfl, ?_⟩
  rw [encode, selects_iff _ ⟨BitVec.allOnes 8, 0, 0, BitVec.allOnes 24, 0⟩ ⟨0x02, 0, 0, 0, 0⟩ _ rfl rfl]
  simp [formatAnd, Instr.format, Instr.opc]

theorem pqPop : Statement .pqPop := by unfold Statement; decide

theorem pqSize : Statement .pqSize := by unfold Statement; decide

theorem ftClear : Statement .ftClear := by unfold Statement; decide

theorem ftWrite (sym : Symbol) (count : Count) : Statement (.ftWrite sym count) := by
  refine ⟨?_, ?_⟩
  · have := (count_extends count).1
    simp_all [Format.wellFormed, Format.opcKnown, Format.rsvZero, Format.tieUsed, Format.valUsed, Format.prioUsed,
      Format.countFits, Instr.format, Instr.opc]
  · rw [encode, selects_iff _ ⟨BitVec.allOnes 8, 0, BitVec.allOnes 16, BitVec.allOnes 24, 0xFF0000000000000000⟩
      ⟨0x11, 0, 0, 0, 0⟩ _ rfl rfl]
    have : count.setWidth 72 &&& 0xFF0000000000000000 = (0 : Prio) := by
      ext i hi
      simp only [BitVec.getElem_and, BitVec.getElem_setWidth]
      interval_cases i <;> simp
    simp_all [formatAnd, Instr.format, Instr.opc]

theorem buildTree : Statement .buildTree := by unfold Statement; decide

theorem buildCodes : Statement .buildCodes := by unfold Statement; decide

theorem encode : Statement .encode := by unfold Statement; decide

theorem decode : Statement .decode := by unfold Statement; decide

end Sys2Proof.Laws.MatchesRow
end

