-- ==== Sys2Proof/Tests/Slice0.lean ====
section
/-! SUPPORT. Small tests, their expected results taken from spec/95_test_vectors.md and the worked examples of the rules,
and for every statement with hypotheses a witness that meets them (its name begins with `witness_`). -/

open Sys2Proof Sys2Proof.Machine

namespace Sys2Proof.Tests

/-! ## Helpers -/

def tableOf (ps : List (Symbol × Count)) : Table Count := ps.foldl (fun t p => tableSet t p.1 p.2) (tableEmpty Count)

def loaded (ps : List (Symbol × Count)) (inp : List Byte) : State := { State.reset with ft := tableOf ps, inp := inp }

def queued (pq : List Entry) : State := { State.reset with pq := pq }

/-- The state after a command, or the state itself where it stops. -/
def after (i : Instr) (s : State) : State :=
  match exec i s with
  | .next t => t
  | _ => s

/-- The state after a step, or the state itself where it stops. -/
def afterStep (s : State) : State :=
  match step s with
  | .next t => t
  | _ => s

def isNext (o : Host.Outcome State Fault Refusal) : Bool :=
  match o with
  | .next _ => true
  | _ => false

theorem exec_after {i : Instr} {s : State} (h : isNext (exec i s) = true) : exec i s = .next (after i s) := by
  unfold after
  cases he : exec i s <;> simp_all [isNext]

/-- `A:3 B:1` with its tree, from spec/95_test_vectors.md T1. -/
def built : State := after .buildTree (loaded [(0x41, 3), (0x42, 1)] [])

/-- The same with its codes. -/
def coded : State := after .buildCodes built

/-- The header `A:3 B:1` and its blank line (44_container_format.md R153). -/
def headerAB : List Byte := [0x41, 0x3A, 0x33, 0x20, 0x42, 0x3A, 0x31, 0x0A, 0x0A]

def withInput (inp : List Byte) : State := { State.reset with inp := inp }

theorem parse_eq {inp z : List Byte} {t : Table Count}
    (h : (match hdrParse inp with
      | .ok (u, r) => tablePairs u == tablePairs t && r == z
      | .error _ => false) = true) : hdrParse inp = .ok (t, z) := by
  split at h
  · rename_i u r hp
    simp only [Bool.and_eq_true, beq_iff_eq] at h
    rw [hp, tablePairs_inj h.1, h.2]
  · simp at h

theorem codes_eq {node : List Node} {root : NodeIdx} {t : Table Code}
    (h : (match treeCodes node root with
      | .ok u => tablePairs u == tablePairs t
      | .error _ => false) = true) : treeCodes node root = .ok t := by
  split at h
  · rename_i u hp
    rw [hp, tablePairs_inj (beq_iff_eq.1 h)]
  · simp at h

theorem codes_of {s : State} (hv : s.treeValid = true)
    (h : (match s.root with
      | some r => (match treeCodes s.node r with
        | .ok u => tablePairs u == tablePairs s.ct
        | .error _ => false)
      | none => false) = true) : buildCodes s = .ok s.ct := by
  split at h
  · rename_i r hr
    simpa [buildCodes, hv, hr] using codes_eq h
  · simp at h

/-! ## The legality checks: one ill-formed descriptor for each, and one that passes them all -/

theorem test_wf_ok : Format.wellFormed ⟨0x02, 0x41, 0x0007, 0, 3⟩ = true := by decide
theorem test_wf_opc : Format.wellFormed ⟨0x05, 0, 0, 0, 0⟩ = false := by decide
theorem test_wf_rsv : Format.wellFormed ⟨0x02, 1, 1, 1, 1⟩ = false := by decide
theorem test_wf_tie : Format.wellFormed ⟨0x03, 1, 0, 0, 0⟩ = false := by decide
theorem test_wf_val : Format.wellFormed ⟨0x11, 0x41, 1, 0, 3⟩ = false := by decide
theorem test_wf_prio : Format.wellFormed ⟨0x04, 0, 0, 0, 1⟩ = false := by decide
theorem test_wf_count : Format.wellFormed ⟨0x11, 0x41, 0, 0, 0x010000000000000000⟩ = false := by decide

/-! ## Decoding: each command's word written out from 30_encoding.md R71 and R74 (95_test_vectors.md section 2) -/

theorem test_decode_pqClear : decode 0x01000000000000000000000000000000 = .ok .pqClear := by decide
theorem test_decode_pqPush : decode 0x02020064000000000000000000000005 = .ok (.pqPush 5 2 100) := by decide
theorem test_decode_pqPush_max : decode 0x02FFFFFF000000FFFFFFFFFFFFFFFFFF =
    .ok (.pqPush 0xFFFFFFFFFFFFFFFFFF 0xFF 0xFFFF) := by decide
theorem test_decode_pqPop : decode 0x03000000000000000000000000000000 = .ok .pqPop := by decide
theorem test_decode_pqSize : decode 0x04000000000000000000000000000000 = .ok .pqSize := by decide
theorem test_decode_ftClear : decode 0x10000000000000000000000000000000 = .ok .ftClear := by decide
theorem test_decode_ftWrite : decode 0x11410000000000000000000000000003 = .ok (.ftWrite 0x41 3) := by decide
theorem test_decode_ftWrite_max : decode 0x11FF000000000000FFFFFFFFFFFFFFFF =
    .ok (.ftWrite 0xFF 0xFFFFFFFFFFFFFFFF) := by decide
theorem test_decode_buildTree : decode 0x20000000000000000000000000000000 = .ok .buildTree := by decide
theorem test_decode_buildCodes : decode 0x21000000000000000000000000000000 = .ok .buildCodes := by decide
theorem test_decode_encode : decode 0x30000000000000000000000000000000 = .ok .encode := by decide
theorem test_decode_decode : decode 0x31000000000000000000000000000000 = .ok .decode := by decide
theorem test_decode_no_row : decode 0x12000000000000000000000000000000 = .error .unknownOpc := by decide
theorem test_decode_reserved : decode 0x02010001000001000000000000000001 = .error .reservedNonZero := by decide
theorem test_decode_operand : decode 0x03010000000000000000000000000000 = .error .operandNonZero := by decide
theorem test_decode_wide_count : decode 0x11410000000000010000000000000000 = .error .countTooWide := by decide
theorem test_decode_bytes : decodeBytes [0x02, 0x41, 0x00, 0x07, 0, 0, 0, 0, 0, 0, 0, 0, 0, 0, 0, 0x03] =
    .ok (.pqPush 3 0x41 7) := by decide
theorem test_decode_short : decodeBytes [0x01, 0x00] = .error .notSixteenBytes := by decide

/-! ## One step of each command -/

/-- The first command after reset (95_test_vectors.md section 3). -/
theorem test_step_from_reset :
    (afterStep (State.reset.withFetchWord 128 0x02020064000000000000000000000005)).pq = [⟨5, 2, 100⟩] := by
  decide +kernel

theorem test_step_illegal : (afterStep (built.withFetchWord 128 0x05000000000000000000000000000000)).rsp =
    0x80000000000000000000000000000000 := by decide +kernel

theorem test_pqClear : (after .pqClear (queued [⟨5, 2, 100⟩, ⟨5, 2, 100⟩])).pq = [] := by decide +kernel

/-- Of two entries of equal priority the smaller tie is first (40_priority_queue.md R91). -/
theorem test_pqPush_tie : (after .pqPop (after (.pqPush 5 1 8) (queued [⟨5, 2, 100⟩]))).rsp =
    0x00010008000000000000000000000005 := by decide +kernel

theorem test_pqPush_full : (after (.pqPush 0 0 0) (queued (List.replicate 256 ⟨9, 9, 9⟩))).rsp =
    0x81000000000000000000000000000000 := by decide +kernel

/-- The priority is compared before the tie, unsigned over 72 bits. -/
theorem test_pqPop_prio : (after .pqPop (queued [⟨0x7F, 9, 1⟩, ⟨0x800000000000000000, 0, 2⟩])).rsp =
    0x0009000100000000000000000000007F := by decide +kernel

theorem test_pqPop_empty : (after .pqPop State.reset).rsp = 0x06000000000000000000000000000000 := by decide +kernel

/-- 95_test_vectors.md section 3.2: a full queue. -/
theorem test_pqSize_full : (after .pqSize (queued (List.replicate 256 ⟨9, 9, 9⟩))).rsp =
    0x00000100000000000000000000000000 := by decide +kernel

theorem test_ftClear : symbols (after .ftClear coded).ft = [] ∧ (after .ftClear coded).treeValid = false := by
  decide +kernel

/-- 95_test_vectors.md section 4.4: a write replaces a count and clears the tree and the codes. -/
theorem test_ftWrite : tablePairs (after (.ftWrite 0x41 9) coded).ft = [(0x41, 9), (0x42, 1)] ∧
    (after (.ftWrite 0x41 9) coded).nodeCount = 0 ∧ symbols (after (.ftWrite 0x41 9) coded).ct = [] := by decide +kernel

/-- 95_test_vectors.md T3, "abracadabra": the response and the internal nodes. -/
theorem test_buildTree_abracadabra :
    (after .buildTree (loaded [(0x61, 5), (0x62, 2), (0x63, 1), (0x64, 1), (0x72, 2)] [])).rsp =
        0x0000000900000000000000000000000B ∧
      ((after .buildTree (loaded [(0x61, 5), (0x62, 2), (0x63, 1), (0x64, 1), (0x72, 2)] [])).node.map nodeChildren).drop 5
        = [[3, 2], [5, 1], [6, 4], [7, 0]] := by decide +kernel

/-- 95_test_vectors.md T8: a sum of counts that needs 65 bits. -/
theorem test_buildTree_wide :
    (after .buildTree (loaded [(0x00, 0xFFFFFFFFFFFFFFFF), (0xFF, 0xFFFFFFFFFFFFFFFF)] [])).rsp =
      0x0000000300000001FFFFFFFFFFFFFFFE := by decide +kernel

/-- 95_test_vectors.md section 5, T3 under SECOND_LEFT. -/
theorem test_buildCodes_abracadabra :
    tablePairs (after .buildCodes
        (after .buildTree (loaded [(0x61, 5), (0x62, 2), (0x63, 1), (0x64, 1), (0x72, 2)] []))).ct =
      [(0x61, [true]), (0x62, [false, false, true]), (0x63, [false, false, false, true]),
        (0x64, [false, false, false, false]), (0x72, [false, true])] := by decide +kernel

theorem test_buildCodes_no_tree : symbols (after .buildCodes (loaded [(0x41, 3)] [])).ct = [] := by decide +kernel

/-- 44_container_format.md R164: the worked example. -/
theorem test_encode : (after .encode { coded with inp := [0x41, 0x41, 0x41, 0x42] }).out =
    headerAB ++ [0x10, 0x04] := by decide +kernel

theorem test_encode_unmapped : (after .encode { coded with inp := [0x41, 0x43] }).rsp =
    0x02430000000000000000000000000000 := by decide +kernel

/-- 44_container_format.md R165: the worked example. -/
theorem test_decode : (after .decode (withInput (headerAB ++ [0x10, 0x04]))).out = [0x41, 0x41, 0x41, 0x42] := by
  decide +kernel

/-- 60_exceptions.md R185: a padding byte above 7. -/
theorem test_decode_padding : (after .decode (withInput (headerAB ++ [0x10, 0x08]))).rsp =
    0x04080000000000000000000000000000 := by decide +kernel

/-- The escapes and a raw byte of the header (44_container_format.md R151, 95_test_vectors.md section 6). -/
theorem test_header_tokens : hdrSerialize (tableOf [(0x00, 2), (0x0A, 3), (0x3A, 10)]) =
    [0x5C, 0x78, 0x30, 0x30, 0x3A, 0x32, 0x20, 0x5C, 0x6E, 0x3A, 0x33, 0x20, 0x5C, 0x3A, 0x3A, 0x31, 0x30, 0x0A, 0x0A] := by
  decide +kernel

/-- The host's moves: what is appended is read, what is drained is received (20_memory.md R52, R53). -/
theorem test_host_moves :
    (afterStep { State.reset with moves := [.inAppend [1, 2]], inp := [7] }).inp = [7, 1, 2] ∧
      (afterStep { State.reset with moves := [.outDrain 2], out := [1, 2, 3] }).received = [1, 2] ∧
      (afterStep { State.reset with moves := [.outDrain 2], out := [1, 2, 3] }).out = [3] := by decide +kernel

/-! ## Witnesses: a concrete state and operands for the hypotheses of each statement -/

theorem witness_EncodeOfDecode : decode 0x11420000000000000000000000000001 = .ok (.ftWrite 0x42 1) := by decide

theorem witness_DecodeSelectsTableRow :
    Instr.pqSize.row ∈ opcodeTable ∧ Instr.pqSize.row.selects 0x04000000000000000000000000000000 = true ∧
      ∀ r ∈ opcodeTable, r.selects 0x04000000000000000000000000000001 = false := by decide

theorem witness_IllegalDescriptorOnlyReports :
    ∀ r ∈ opcodeTable, r.selects 0x11410000000000010000000000000000 = false := by decide

theorem witness_StepRunsIssuedCommand :
    State.moves { State.reset with moves := [.command 0x04000000000000000000000000000000] } =
        .command 0x04000000000000000000000000000000 :: [] ∧
      decode 0x04000000000000000000000000000000 = .ok .pqSize := by decide

theorem witness_StepRunsIssuedCommand_illegal :
    State.moves { State.reset with moves := [.command 0] } = .command 0 :: [] ∧
      decode 0 = .error .unknownOpc := by decide

theorem witness_HostMovesTakeEffect_append :
    State.moves { State.reset with moves := [.inAppend []] } = .inAppend [] :: [] := by decide

theorem witness_HostMovesTakeEffect_drain_all :
    State.moves { State.reset with moves := [.outDrain 1], out := [7] } = .outDrain 1 :: [] ∧
      1 ≤ (State.out { State.reset with moves := [.outDrain 1], out := [7] }).length := by decide

theorem witness_HostMovesTakeEffect_drain_beyond :
    State.moves { State.reset with moves := [.outDrain 2], out := [7] } = .outDrain 2 :: [] ∧
      (State.out { State.reset with moves := [.outDrain 2], out := [7] }).length < 2 := by decide

theorem witness_HostMovesTakeEffect_idle : State.reset.moves = [] := by decide

theorem witness_ResetMoveRestoresBlock : State.moves { coded with moves := [.reset] } = .reset :: [] := by decide +kernel

theorem witness_PqPushStoresOneEntry_room : (queued (List.replicate 255 ⟨1, 2, 3⟩)).pq.length < Config.pqCap := by
  decide +kernel

theorem witness_PqPushStoresOneEntry_full : Config.pqCap ≤ (queued (List.replicate 256 ⟨1, 2, 3⟩)).pq.length := by
  decide +kernel

theorem witness_PqPopTakesAMinimalEntry : (queued [⟨5, 1, 10⟩, ⟨5, 1, 20⟩]).pq ≠ [] := by decide

theorem witness_PqPopTakesAMinimalEntry_empty : State.reset.pq = [] := by decide

theorem witness_PqPopOfUniqueMinimum :
    (⟨5, 1, 10⟩ : Entry) ∈ (queued [⟨5, 1, 10⟩, ⟨5, 1, 10⟩, ⟨5, 2, 0⟩]).pq ∧
      ∀ e ∈ (queued [⟨5, 1, 10⟩, ⟨5, 1, 10⟩, ⟨5, 2, 0⟩]).pq, e = ⟨5, 1, 10⟩ ∨ keyLt ⟨5, 1, 10⟩ e = true := by decide

theorem witness_BulkLoadEqualsPushesInAnyOrder :
    ([⟨5, 1, 10⟩, ⟨4, 1, 20⟩] : List Entry).Perm [⟨4, 1, 20⟩, ⟨5, 1, 10⟩] := by decide

theorem witness_BuildTreeOnEmptyTable : symbols State.reset.ft = [] := by decide +kernel

/-- For every statement about a table that is not empty: the smallest and a larger one. -/
theorem witness_table_not_empty :
    symbols (loaded [(0x41, 5)] []).ft ≠ [] ∧ symbols (loaded [(0x00, 0), (0xFF, 1)] []).ft ≠ [] := by decide +kernel

theorem witness_TreeIsAFunctionOfTheTable :
    State.ft { coded with pq := [⟨1, 2, 3⟩] } = (loaded [(0x41, 3), (0x42, 1)] [7]).ft ∧
      symbols (State.ft { coded with pq := [⟨1, 2, 3⟩] }) ≠ [] :=
  ⟨tablePairs_inj (by decide +kernel), by decide +kernel⟩

theorem witness_BuiltArenaIsOrderedAndSummed :
    (tablePairs built.ft)[1]? = some (0x42, 1) ∧ (symbols built.ft).length ≤ 2 ∧
      built.node[2]? = some (.internal 0 1 4 (symsOf 0x41 ||| symsOf 0x42)) := by decide +kernel

theorem witness_BuildCodesOnEmptyTree : State.reset.treeValid = false := by decide

theorem witness_SingleLeafGetsCodeZero :
    (after .buildTree (loaded [(0x41, 5)] [])).treeValid = true ∧
      (after .buildTree (loaded [(0x41, 5)] [])).root = some 0 ∧
      nodeAt (after .buildTree (loaded [(0x41, 5)] [])).node 0 = some (.leaf 0x41 5 (symsOf 0x41)) := by decide +kernel

theorem built_tree : builtFrom (tableOf [(0x41, 3), (0x42, 1)]) = some (built.node, 2) := by decide +kernel

/-- The invariant at a state with a valid tree and no codes; for BuildCodesCompletes, CodesArePrefixFree and
CodesAreRootToLeafPaths. -/
theorem witness_inv_built : built.Inv ∧ built.treeValid = true ∧ 2 ≤ (symbols built.ft).length := by
  refine ⟨⟨⟨?_, ?_⟩, ?_, Or.inl (tablePairs_inj ?_), ?_, ?_⟩, ?_, ?_⟩
  · decide +kernel
  · decide +kernel
  · have hv : built.treeValid = true := by decide +kernel
    have hf : built.ft = tableOf [(0x41, 3), (0x42, 1)] := tablePairs_inj (by decide +kernel)
    simp only [treeOk, hv]
    exact ⟨by decide +kernel, 2, by decide +kernel, by rw [hf]; exact built_tree⟩
  all_goals decide +kernel

/-- The invariant at a state with codes and an input that they cover; for EncodeOutputIsAFunction. -/
theorem witness_EncodeOutputIsAFunction :
    State.Inv { coded with inp := [0x42] } ∧ State.inp { coded with inp := [0x42] } ≠ [] ∧
      ∀ b ∈ State.inp { coded with inp := [0x42] }, (tableGet (State.ct { coded with inp := [0x42] }) b).isSome = true := by
  refine ⟨⟨⟨?_, ?_⟩, ?_, Or.inr ⟨?_, codes_of ?_ ?_⟩, ?_, ?_⟩, ?_, ?_⟩
  · decide +kernel
  · decide +kernel
  · have hv : coded.treeValid = true := by decide +kernel
    have hf : coded.ft = tableOf [(0x41, 3), (0x42, 1)] := tablePairs_inj (by decide +kernel)
    have hn : coded.node = built.node := by decide +kernel
    simp only [treeOk, hv]
    exact ⟨by decide +kernel, 2, by decide +kernel, by rw [hf, hn]; exact built_tree⟩
  all_goals decide +kernel

theorem witness_EncodePacksEveryCode :
    ∀ b ∈ State.inp { coded with inp := [0x41, 0x42] },
      (tableGet (State.ct { coded with inp := [0x41, 0x42] }) b).isSome = true := by decide +kernel

theorem witness_EncodeStopsAtUnmappedSymbol :
    State.inp { coded with inp := [0x41, 0x43, 0x42] } = [0x41] ++ 0x43 :: [0x42] ∧
      (∀ b ∈ [0x41], (tableGet coded.ct b).isSome = true) ∧ tableGet coded.ct 0x43 = none := by decide +kernel

theorem witness_HeaderRoundTrip :
    symbols (tableOf [(0x0A, 0xFFFFFFFFFFFFFFFF)]) ≠ [] ∧ symbols (tableEmpty Count) = [] := by decide +kernel

theorem witness_HeaderPairsMayRepeatOverLines :
    ∀ l ∈ ([[(0x41, 3)], [(0x42, 1), (0x41, 9)]] : List (List (Symbol × Count))), l ≠ [] := by decide

theorem witness_HeaderWithoutBlankLineIsMalformed :
    (withInput [0x41, 0x3A, 0x33, 0x0A, 0x41]).inp.head? ≠ some 0x0A ∧
      ¬ [0x0A, 0x0A] <:+: (withInput [0x41, 0x3A, 0x33, 0x0A, 0x41]).inp := by decide +kernel

/-- DecodeOutcomesInOrder: no header, an empty one, no byte behind it, a padding byte of 8, one of 7, a cut code. -/
theorem witness_DecodeOutcomesInOrder :
    ((after .decode (withInput [0x41])).rsp = 0x03000000000000000000000000000000 ∧
      (after .decode (withInput [0x0A])).rsp = 0x01000000000000000000000000000000 ∧
      (after .decode (withInput headerAB)).rsp = 0x05000000000000000000000000000000) ∧
    (after .decode (withInput (headerAB ++ [0x08]))).rsp = 0x04080000000000000000000000000000 ∧
      (after .decode (withInput (headerAB ++ [0x80, 0x07]))).out = [0x42] ∧
      (after .decode (withInput (hdrSerialize (tableOf [(0x61, 1), (0x62, 1), (0x63, 1)]) ++ [0x00, 0x07]))).rsp =
        0x05000000000000000000000000000000 := by decide +kernel

theorem witness_PaddingAboveSevenIsMalformed :
    hdrParse (withInput (headerAB ++ ([] ++ [0x08]))).inp = .ok (tableOf [(0x41, 3), (0x42, 1)], [] ++ [0x08]) ∧
      hdrParse (withInput (headerAB ++ ([0x10] ++ [0xFF]))).inp = .ok (tableOf [(0x41, 3), (0x42, 1)], [0x10] ++ [0xFF]) ∧
      symbols (tableOf [(0x41, 3), (0x42, 1)]) ≠ [] ∧ 7 < (0x08 : Byte).toNat ∧ 7 < (0xFF : Byte).toNat := by
  refine ⟨parse_eq ?_, parse_eq ?_, ?_, ?_, ?_⟩ <;> decide +kernel

theorem witness_SingleSymbolFileDecodes :
    symbols (tableOf [(0x41, 5)]) = [0x41] ∧
      hdrParse (withInput [0x41, 0x3A, 0x35, 0x0A, 0x0A, 0x00, 0x07]).inp = .ok (tableOf [(0x41, 5)], [0x00] ++ [0x07]) ∧
      (0x07 : Byte).toNat ≤ 7 :=
  ⟨by decide +kernel, parse_eq (by decide +kernel), by decide⟩

theorem witness_WalkSpellsTheBits :
    builtFrom built.ft = some (built.node, 2) ∧ 2 ≤ (symbols built.ft).length ∧
      treeCodes built.node 2 = .ok coded.ct := by
  have hf : built.ft = tableOf [(0x41, 3), (0x42, 1)] := tablePairs_inj (by decide +kernel)
  exact ⟨hf ▸ built_tree, by decide +kernel, codes_eq (by decide +kernel)⟩

theorem witness_DecodeForgetsTheOldState :
    State.inp { coded with inp := headerAB } = (withInput headerAB).inp ∧
      State.draws { coded with inp := headerAB } = (withInput headerAB).draws := by decide +kernel

theorem witness_CompressThenDecodeIsIdentity :
    [0x41, 0x42] ≠ ([] : List Byte) ∧ (loaded [(0x41, 1), (0x42, 1)] [0x41, 0x42]).inp = [0x41, 0x42] ∧
      (∀ b ∈ [0x41, 0x42], (tableGet (loaded [(0x41, 1), (0x42, 1)] [0x41, 0x42]).ft b).isSome = true) := by decide +kernel

theorem witness_RoundTripUnderEitherChildOrder :
    [0x41] ≠ ([] : List Byte) ∧ (∀ b ∈ [0x41], (tableGet (loaded [(0x41, 1)] []).ft b).isSome = true) ∧
      (loaded [(0x41, 1)] [7]).ft = (loaded [(0x41, 1)] []).ft :=
  ⟨by decide, by decide +kernel, rfl⟩

/-- EveryStepKeepsTheInvariant and EveryCommandCompletes: a state with the invariant whose step goes on. -/
theorem witness_EveryStepKeepsTheInvariant :
    State.Inv (built.withFetchWord 128 0x21000000000000000000000000000000) ∧
      step (built.withFetchWord 128 0x21000000000000000000000000000000) =
        .next (afterStep (built.withFetchWord 128 0x21000000000000000000000000000000)) := by
  have h : isNext (step (built.withFetchWord 128 0x21000000000000000000000000000000)) = true := by decide +kernel
  refine ⟨witness_inv_built.1, ?_⟩
  unfold afterStep
  split <;> simp_all [isNext]

/-- OnlyTheirCommandsWriteTheTables: commands that change the table, the tree and the codes. -/
theorem witness_OnlyTheirCommandsWriteTheTables :
    isNext (exec (.ftWrite 0x43 1) coded) = true ∧ (after (.ftWrite 0x43 1) coded).ft ≠ coded.ft ∧
      isNext (exec .buildTree (loaded [(0x41, 3)] [])) = true ∧
      (after .buildTree (loaded [(0x41, 3)] [])).node ≠ (loaded [(0x41, 3)] []).node ∧
      isNext (exec .buildCodes built) = true ∧ (after .buildCodes built).ct ≠ built.ct ∧
      rspStatus (after .buildTree (loaded [(0x41, 3)] [])).rsp = statusOk := by
  refine ⟨?_, mt (congrArg tablePairs) ?_, ?_, ?_, ?_, mt (congrArg tablePairs) ?_, ?_⟩ <;> decide +kernel

theorem witness_next_encode_decode :
    exec .encode coded = .next (after .encode coded) ∧ exec .decode coded = .next (after .decode coded) :=
  ⟨exec_after (by decide +kernel), exec_after (by decide +kernel)⟩

/-- FaultsAreReportedAndRecorded, ResponsesAreWellFormed and CommandsOnlyAppendToOut: a command that ends `OK` and one that
faults. -/
theorem witness_FaultsAreReportedAndRecorded :
    exec .pqSize State.reset = .next (after .pqSize State.reset) ∧ rspStatus (after .pqSize State.reset).rsp = statusOk ∧
      exec .pqPop State.reset = .next (after .pqPop State.reset) ∧
      rspStatus (after .pqPop State.reset).rsp ≠ statusOk := by
  refine ⟨exec_after ?_, ?_, exec_after ?_, ?_⟩ <;> decide +kernel

theorem witness_BuildersEmptyTheQueue :
    exec .buildTree (loaded [(0x41, 5)] []) = .next (after .buildTree (loaded [(0x41, 5)] [])) ∧
      rspStatus (after .buildTree (loaded [(0x41, 5)] [])).rsp = statusOk := by
  refine ⟨exec_after ?_, ?_⟩ <;> decide +kernel

/-- FreeChoicesAreDrawnOnlyWhereOpen: two entries of equal key. -/
theorem witness_FreeChoicesAreDrawnOnlyWhereOpen :
    ∃ t, exec .pqPop (queued [⟨5, 1, 10⟩, ⟨5, 1, 20⟩]) = .next t ∧ t.draws ≠ (queued [⟨5, 1, 10⟩, ⟨5, 1, 20⟩]).draws :=
  ⟨_, rfl, by show (1 : Nat) ≠ 0; decide⟩

end Sys2Proof.Tests
end

namespace Sys2Proof.Machine

/-! ## One step of the host: the rules of `step` and `issue` (10_state.md R38, 20_memory.md R52, R53) -/

/-- With a move in the list, a step takes it off and performs it. -/
theorem step_of_moves_cons {s : State} {m : HostMove} {rest : List HostMove} (h : s.moves = m :: rest) :
    step s = perform m { s with moves := rest } := by
  simp only [step, nextMove, h]

theorem issue_of_decode_ok {d : Descriptor} {i : Instr} (h : decode d = .ok i) (s : State) :
    issue d s = exec i s := by
  simp only [issue, h]

theorem issue_of_decode_error {d : Descriptor} (h : ∃ e, decode d = .error e) (s : State) :
    issue d s = .next (raise .illegalCommand s) := by
  obtain ⟨e, he⟩ := h
  simp only [issue, he]

/-- A step whose move writes a descriptor is the issue of that descriptor, the move taken. -/
theorem step_of_command {s : State} {d : Descriptor} {rest : List HostMove} (h : s.moves = .command d :: rest) :
    step s = issue d { s with moves := rest } :=
  step_of_moves_cons h

/-- Settles O8: the step issues the descriptor, and the issue is decided by what the descriptor decodes to. -/
theorem stepRunsIssuedCommand : Obligations.StepRunsIssuedCommand := by
  intro s d rest hmoves
  have hstep := step_of_command hmoves
  constructor
  · intro i hdecode
    exact hstep.trans (issue_of_decode_ok hdecode _)
  · intro hillegal
    exact hstep.trans (issue_of_decode_error hillegal _)

end Sys2Proof.Machine

namespace Sys2Proof.Machine

/-! ## What a command can do: one inversion of `exec` for all commands -/

theorem execPqPush_cases (prio : Prio) (tie : Tie) (val : Val) (s : State) :
    (s.pq.length < Config.pqCap ∧
      execPqPush prio tie val s = .next (respondOk (withPq (pqInsert ⟨prio, tie, val⟩ s.pq) s))) ∨
    (Config.pqCap ≤ s.pq.length ∧ execPqPush prio tie val s = .next (raise .queueFull s)) := by
  rcases Nat.lt_or_ge s.pq.length Config.pqCap with hroom | hfull
  · exact .inl ⟨hroom, by simp only [execPqPush, pqSize, ge_iff_le, Nat.not_le.2 hroom, if_false]⟩
  · exact .inr ⟨hfull, by simp only [execPqPush, pqSize, ge_iff_le, hfull, if_true]⟩

theorem execPqPop_cases (s : State) :
    (∃ p, pqPop s.pq s.draws = some p ∧ execPqPop s =
      .next (respond p.entry.tie p.entry.val p.entry.prio { s with pq := p.pq, draws := p.draws })) ∨
    (s.pq = [] ∧ execPqPop s = .next (raise .emptyQueue s)) := by
  cases hpop : pqPop s.pq s.draws with
  | none => exact .inr ⟨pqPop_eq_none.1 hpop, by simp only [execPqPop, hpop]⟩
  | some p => exact .inl ⟨p, rfl, by simp only [execPqPop, hpop]⟩

/-- The code walk stops the model only: it raises no error of the block. -/
theorem codeWalk_error {node : List Node} {k : Nat} {i : NodeIdx} {path : Code} {ct : Table Code} {e : Stop}
    (h : codeWalk node k i path ct = .error e) : ∃ f, e = .fault f := by
  induction k generalizing i path ct with
  | zero => exact ⟨_, (Except.error.inj h).symm⟩
  | succ k ih =>
    simp only [codeWalk] at h
    split at h
    · exact ⟨_, (Except.error.inj h).symm⟩
    · cases h
    · split at h
      · next hleft => obtain rfl := Except.error.inj h; exact ih hleft
      · exact ih h

theorem treeCodes_error {node : List Node} {i : NodeIdx} {e : Stop} (h : treeCodes node i = .error e) :
    ∃ f, e = .fault f := by
  simp only [treeCodes] at h
  split at h
  · exact ⟨_, (Except.error.inj h).symm⟩
  · cases h
  · exact codeWalk_error h

theorem buildCodes_error {s : State} {e : Stop} (h : buildCodes s = .error e) : ∃ f, e = .fault f := by
  simp only [buildCodes] at h
  split at h
  · split at h
    · exact ⟨_, (Except.error.inj h).symm⟩
    · exact treeCodes_error h
  · cases h

/-- Where BUILD_CODES goes on, `build_codes` has made a table, which is the new `CT` (42_code_derivation.md R133). -/
theorem execBuildCodes_next {s t : State} (h : execBuildCodes s = .next t) :
    ∃ ct, buildCodes s = .ok ct ∧ t = respondOk (withCt ct s) := by
  cases hb : buildCodes s with
  | ok ct =>
    simp only [execBuildCodes, hb] at h
    exact ⟨ct, rfl, (Host.Outcome.next.inj h).symm⟩
  | error e =>
    obtain ⟨f, rfl⟩ := buildCodes_error hb
    simp only [execBuildCodes, hb, stopWith, reduceCtorEq] at h

/-- On a table that is not empty BUILD_TREE leaves the arena and root that the table determines
(41_tree_build.md R119, R120). -/
theorem execBuildTree_built {s : State} (hne : tablePairs s.ft ≠ []) :
    ∃ node root t, BuiltOk s.ft node root t ∧ builtFrom s.ft = some (node, root) ∧
      execBuildTree s = .next (respond 0 (valOfIndex node.length) t.freq (builtState node root s)) := by
  obtain ⟨node, root, t, hok, hexec, hbuild⟩ := execBuildTree_ok s.ft hne
  exact ⟨node, root, t, hok, builtFrom_eq rfl (hbuild s rfl), hexec s rfl⟩

/-- `CommandEnds i s t`: the ways command `i` can end in state `s`, each with the state `t` it leaves and what is known
there. `commandEnds_of_exec` says that `exec` ends in no other way. -/
inductive CommandEnds : Instr → State → State → Prop
  | pqClear (s) : CommandEnds .pqClear s (respondOk (clearPq s))
  | pqPush (prio tie val s) (hroom : s.pq.length < Config.pqCap) :
      CommandEnds (.pqPush prio tie val) s (respondOk (withPq (pqInsert ⟨prio, tie, val⟩ s.pq) s))
  | pqPushFull (prio tie val s) (hfull : Config.pqCap ≤ s.pq.length) :
      CommandEnds (.pqPush prio tie val) s (raise .queueFull s)
  | pqPop (s p) (hpop : pqPop s.pq s.draws = some p) :
      CommandEnds .pqPop s
        (respond p.entry.tie p.entry.val p.entry.prio { s with pq := p.pq, draws := p.draws })
  | pqPopEmpty (s) (hempty : s.pq = []) : CommandEnds .pqPop s (raise .emptyQueue s)
  | pqSize (s) : CommandEnds .pqSize s (respond 0 (BitVec.ofNat 16 (pqSize s.pq)) 0 s)
  | ftClear (s) : CommandEnds .ftClear s (respondOk (clearDerived (clearFt s)))
  | ftWrite (sym count s) :
      CommandEnds (.ftWrite sym count) s (respondOk (clearDerived (withFt (tableSet s.ft sym count) s)))
  | buildTree (s node root t) (hok : BuiltOk s.ft node root t) (hfrom : builtFrom s.ft = some (node, root)) :
      CommandEnds .buildTree s (respond 0 (valOfIndex node.length) t.freq (builtState node root s))
  | buildTreeEmpty (s) (hempty : tablePairs s.ft = []) : CommandEnds .buildTree s (raise .emptyInput s)
  | buildCodes (s ct) (hcodes : buildCodes s = .ok ct) : CommandEnds .buildCodes s (respondOk (withCt ct s))
  | encode (s p pad) (hmapped : allMapped s.ct s.inp) (hpack : payloadPack s.ct s.inp = (p ++ [pad], none)) :
      CommandEnds .encode s (respondOk (deliver (hdrSerialize s.ft ++ (p ++ [pad])) (consumeIn s)))
  | encodeUnmapped (s sym p) (hmem : sym ∈ s.inp) (hget : tableGet s.ct sym = none)
      (hpack : payloadPack s.ct s.inp = (p, some (.unmappedSymbol sym))) :
      CommandEnds .encode s (raise (.unmappedSymbol sym) (deliverPrefix (hdrSerialize s.ft ++ p) (consumeIn s)))
  | decodeNoHeader (s) (hparse : hdrParse s.inp = .error .invalidHeaderToken) :
      CommandEnds .decode s (raise .invalidHeaderToken (consumeIn (decodeStart s)))
  | decodeEmptyTable (s ft rest) (hparse : hdrParse s.inp = .ok (ft, rest)) (hempty : tablePairs ft = []) :
      CommandEnds .decode s (raise .emptyInput (withFt ft (consumeIn (decodeStart s))))
  | decode (s ft rest node root t) (hparse : hdrParse s.inp = .ok (ft, rest)) (hok : BuiltOk ft node root t)
      (hfrom : builtFrom ft = some (node, root)) (hend : (payloadUnpack node root rest).2 = none) :
      CommandEnds .decode s (respondOk (deliver (payloadUnpack node root rest).1 (decodeBuilt ft node root s)))
  | decodeBadPayload (s ft rest node root t r) (hparse : hdrParse s.inp = .ok (ft, rest))
      (hok : BuiltOk ft node root t) (hfrom : builtFrom ft = some (node, root))
      (hend : (payloadUnpack node root rest).2 = some (.raise r))
      (hr : r = .truncatedStream ∨ ∃ pad, r = .malformedPadding pad) :
      CommandEnds .decode s
        (raise r (deliverPrefix (payloadUnpack node root rest).1 (decodeBuilt ft node root s)))

/-- An outcome that is known to be the next state `u` and is `t` has `t = u`. -/
theorem eq_of_next {o : Host.Outcome State Fault Refusal} {t u : State} (h : o = .next t) (hu : o = .next u) : t = u :=
  Host.Outcome.next.inj (h.symm.trans hu)

/-- A command that goes on ends in one of the ways of `CommandEnds`. -/
theorem commandEnds_of_exec {i : Instr} {s t : State} (h : exec i s = .next t) : CommandEnds i s t := by
  cases i with
  | pqClear => obtain rfl := eq_of_next h rfl; exact .pqClear s
  | pqSize => obtain rfl := eq_of_next h rfl; exact .pqSize s
  | ftClear => obtain rfl := eq_of_next h rfl; exact .ftClear s
  | ftWrite sym count => obtain rfl := eq_of_next h rfl; exact .ftWrite sym count s
  | pqPush prio tie val =>
    rcases execPqPush_cases prio tie val s with ⟨hroom, hu⟩ | ⟨hfull, hu⟩ <;> obtain rfl := eq_of_next h hu
    · exact .pqPush _ _ _ s hroom
    · exact .pqPushFull _ _ _ s hfull
  | pqPop =>
    rcases execPqPop_cases s with ⟨p, hpop, hu⟩ | ⟨hempty, hu⟩ <;> obtain rfl := eq_of_next h hu
    · exact .pqPop s p hpop
    · exact .pqPopEmpty s hempty
  | buildTree =>
    by_cases hempty : tablePairs s.ft = []
    · rcases execBuildTree_cases s with ⟨-, hu⟩ | ⟨node, root, t, hok, -⟩
      · obtain rfl := eq_of_next h hu
        exact .buildTreeEmpty s hempty
      · have hcount := hok.count
        simp only [hempty, List.length_nil] at hcount
        omega
    · obtain ⟨node, root, t, hok, hfrom, hu⟩ := execBuildTree_built hempty
      obtain rfl := eq_of_next h hu
      exact .buildTree s node root t hok hfrom
  | buildCodes =>
    obtain ⟨ct, hcodes, rfl⟩ := execBuildCodes_next h
    exact .buildCodes s ct hcodes
  | encode =>
    rcases execEncode_cases s with ⟨hmapped, p, pad, hpack, hu⟩ | ⟨sym, p, hmem, hget, hpack, hu⟩ <;>
      obtain rfl := eq_of_next h hu
    · exact .encode s p pad hmapped hpack
    · exact .encodeUnmapped s sym p hmem hget hpack
  | decode =>
    rcases execDecode_cases s with ⟨r, hparse, rfl, hu⟩ | ⟨ft, rest, hparse, hempty, hu⟩ |
      ⟨ft, rest, node, root, t, hparse, hok, hfrom, ⟨hend, hu⟩ | ⟨r, hend, hr, hu⟩⟩ <;>
      obtain rfl := eq_of_next h hu
    · exact .decodeNoHeader s hparse
    · exact .decodeEmptyTable s ft rest hparse hempty
    · exact .decode s ft rest node root t hparse hok hfrom hend
    · exact .decodeBadPayload s ft rest node root t r hparse hok hfrom hend hr

/-! ## The invariant (10_state.md R41) -/

/-- The invariant but for the response register, which every command overwrites (10_state.md R37). -/
def dataOk (s : State) : Prop := queueOk s ∧ treeOk s ∧ codesOk s

theorem inv_iff (s : State) : s.Inv ↔ dataOk s ∧ responseOk s.rsp := by
  simp only [State.Inv, dataOk, and_assoc]

theorem inv_respond {s : State} (h : dataOk s) (tie : Tie) (val : Val) (prio : Prio) : (respond tie val prio s).Inv :=
  (inv_iff _).2 ⟨h, responseOk_ok tie val prio⟩

theorem inv_raise {s : State} (h : dataOk s) (r : Raise) : (raise r s).Inv :=
  (inv_iff _).2 ⟨h, responseOk_raise r 0 0⟩

theorem queueOk_nil {s : State} (h : s.pq = []) : queueOk s := by
  simp [queueOk, h]

/-- A changed queue concerns the queue's clause alone. -/
theorem dataOk_withPq {s : State} (h : dataOk s) {pq : List Entry} (hq : queueOk (withPq pq s)) :
    dataOk (withPq pq s) :=
  ⟨hq, h.2⟩

/-- With nothing derived from the table there is nothing that could disagree with it. -/
theorem dataOk_clearDerived {s : State} (h : queueOk s) : dataOk (clearDerived s) :=
  ⟨h, ⟨rfl, rfl, rfl⟩, .inl rfl⟩

theorem dataOk_decodeCleared (ft : Table Count) (s : State) : dataOk (withFt ft (consumeIn (decodeStart s))) :=
  ⟨queueOk_nil rfl, ⟨rfl, rfl, rfl⟩, .inl rfl⟩

/-- The builder's own tree is a valid one (10_state.md R41 a). -/
theorem dataOk_builtState {s : State} {node : List Node} {root : NodeIdx} (h : builtFrom s.ft = some (node, root)) :
    dataOk (builtState node root s) :=
  ⟨queueOk_nil rfl, ⟨rfl, root, rfl, h⟩, .inl rfl⟩

/-- `build_codes`' own table is a valid one (10_state.md R41 b); without a tree it is empty. -/
theorem dataOk_withCt {s : State} (h : dataOk s) {ct : Table Code} (hct : buildCodes s = .ok ct) :
    dataOk (withCt ct s) := by
  obtain ⟨hqueue, htree, -⟩ := h
  refine ⟨hqueue, htree, ?_⟩
  cases hv : s.treeValid with
  | true => exact .inr ⟨hv, hct⟩
  | false =>
    have hnone : buildCodes s = .ok (tableEmpty Code) := by simp only [buildCodes, hv, Bool.false_eq_true, if_false]
    exact .inl (Except.ok.inj (hct.symm.trans hnone))

theorem dataOk_deliverPrefix {s : State} (h : dataOk s) (e : List Byte) : dataOk (deliverPrefix e s) := by
  obtain ⟨k, d, heq⟩ := deliverPrefix_spec e s
  rw [heq]
  exact h

theorem queueOk_pqInsert {s : State} (h : queueOk s) (hroom : s.pq.length < Config.pqCap) (e : Entry) :
    queueOk (withPq (pqInsert e s.pq) s) :=
  ⟨pqInsert_wf e h.1, by rw [withPq_pq, pqInsert_length]; exact hroom⟩

theorem queueOk_pqPop {s : State} (h : queueOk s) {p : Popped} (hpop : pqPop s.pq s.draws = some p) :
    queueOk (withPq p.pq s) := by
  obtain ⟨hwf, hlen⟩ := h
  have hpopped := pqPop_length hpop
  exact ⟨pqPop_wf hpop hwf, by simp only [withPq_pq]; omega⟩

theorem commandEnds_keeps_inv {i : Instr} {s t : State} (h : CommandEnds i s t) (hs : dataOk s) : t.Inv := by
  have hqueue := hs.1
  cases h with
  | pqClear => exact inv_respond (dataOk_withPq hs (queueOk_nil rfl)) 0 0 0
  | pqPush _ _ _ _ hroom => exact inv_respond (dataOk_withPq hs (queueOk_pqInsert hqueue hroom _)) 0 0 0
  | pqPop _ _ hpop => exact inv_respond (dataOk_withPq hs (queueOk_pqPop hqueue hpop)) _ _ _
  | pqSize => exact inv_respond hs _ _ _
  | pqPushFull | pqPopEmpty | buildTreeEmpty => exact inv_raise hs _
  | ftClear | ftWrite => exact inv_respond (dataOk_clearDerived hqueue) 0 0 0
  | buildTree _ _ _ _ _ hfrom => exact inv_respond (dataOk_builtState hfrom) _ _ _
  | buildCodes _ _ hcodes => exact inv_respond (dataOk_withCt hs hcodes) 0 0 0
  | encode => exact inv_respond hs 0 0 0
  | encodeUnmapped => exact inv_raise (dataOk_deliverPrefix (s := consumeIn s) hs _) _
  | decodeNoHeader => exact inv_raise (dataOk_decodeCleared (tableEmpty Count) s) _
  | decodeEmptyTable _ ft => exact inv_raise (dataOk_decodeCleared ft s) _
  | decode _ _ _ _ _ _ _ _ hfrom => exact inv_respond (dataOk_builtState hfrom) 0 0 0
  | decodeBadPayload _ _ _ _ _ _ _ _ _ hfrom => exact inv_raise (dataOk_deliverPrefix (dataOk_builtState hfrom) _) _

theorem exec_keeps_inv {i : Instr} {s t : State} (hs : s.Inv) (h : exec i s = .next t) : t.Inv :=
  commandEnds_keeps_inv (commandEnds_of_exec h) ((inv_iff s).1 hs).1

theorem issue_keeps_inv {d : Descriptor} {s t : State} (hs : s.Inv) (h : issue d s = .next t) : t.Inv := by
  cases hd : decode d with
  | ok i => exact exec_keeps_inv hs (issue_of_decode_ok hd s ▸ h)
  | error e =>
    obtain rfl := eq_of_next h (issue_of_decode_error ⟨e, hd⟩ s)
    exact inv_raise ((inv_iff s).1 hs).1 _

theorem outDrain_keeps_inv {k : Nat} {s t : State} (hs : s.Inv) (h : outDrain k s = .next t) : t.Inv := by
  simp only [outDrain] at h
  split at h
  · obtain rfl := Host.Outcome.next.inj h
    exact hs
  · cases h

/-- Settles O46: nothing is built after reset, the queue is empty and the response reads as `OK`. -/
theorem invariantHoldsAtReset : Obligations.InvariantHoldsAtReset :=
  ⟨queueOk_nil rfl, ⟨rfl, rfl, rfl⟩, .inl rfl, by decide, rfl⟩

theorem resetBlock_inv (s : State) : (resetBlock s).Inv :=
  invariantHoldsAtReset

theorem perform_keeps_inv {m : HostMove} {s t : State} (hs : s.Inv) (h : perform m s = .next t) : t.Inv := by
  cases m with
  | command d => exact issue_keeps_inv hs h
  | inAppend bytes => obtain rfl := eq_of_next h rfl; exact hs
  | outDrain k => exact outDrain_keeps_inv hs h
  | reset => obtain rfl := eq_of_next h rfl; exact resetBlock_inv s

/-- Settles O47: every move of the host keeps the invariant, and with no move left the state stays. -/
theorem everyStepKeepsTheInvariant : Obligations.EveryStepKeepsTheInvariant := by
  intro s t hs h
  cases hmoves : s.moves with
  | nil =>
    have hidle : step s = .next s := by simp only [step, nextMove, hmoves]
    obtain rfl := eq_of_next h hidle
    exact hs
  | cons m rest =>
    rw [step_of_moves_cons hmoves] at h
    exact perform_keeps_inv (s := { s with moves := rest }) hs h

/-- Settles O48: only BUILD_CODES can stop the model, and on a tree that the builder left it does not. -/
theorem everyCommandCompletes : Obligations.EveryCommandCompletes := by
  intro i s ⟨_, htree, _⟩
  cases i with
  | pqClear | pqSize | ftClear | ftWrite => exact ⟨_, rfl⟩
  | pqPush prio tie val => rcases execPqPush_cases prio tie val s with ⟨-, h⟩ | ⟨-, h⟩ <;> exact ⟨_, h⟩
  | pqPop => rcases execPqPop_cases s with ⟨_, -, h⟩ | ⟨-, h⟩ <;> exact ⟨_, h⟩
  | buildTree => rcases execBuildTree_cases s with ⟨-, h⟩ | ⟨_, _, _, -, h⟩ <;> exact ⟨_, h⟩
  | buildCodes =>
    obtain ⟨ct, -, h, -⟩ := execBuildCodes_ok htree
    exact ⟨_, h⟩
  | encode => rcases execEncode_cases s with ⟨-, _, _, -, h⟩ | ⟨_, _, -, -, -, h⟩ <;> exact ⟨_, h⟩
  | decode =>
    rcases execDecode_cases s with ⟨_, -, -, h⟩ | ⟨_, _, -, -, h⟩ |
      ⟨_, _, _, _, _, -, -, -, ⟨-, h⟩ | ⟨_, -, -, h⟩⟩ <;> exact ⟨_, h⟩

/-! ## BUILD_TREE on a table that is not empty -/

theorem tablePairs_ne_nil {α : Type} {t : Table α} (h : symbols t ≠ []) : tablePairs t ≠ [] :=
  fun hnil => h (by simp only [symbols, hnil, List.map_nil])

/-- Settles O21: the merge loop's invariant at its end gives the count, and the pops inside draw nothing. -/
theorem buildTreeCompletes : Obligations.BuildTreeCompletes := by
  intro s hne
  obtain ⟨node, root, t, hok, -, hexec⟩ := execBuildTree_built (tablePairs_ne_nil hne)
  obtain ⟨n, hn, hfreq⟩ := hok.isTree.nodeAt
  have hcount := hok.count
  have hle := tablePairs_length_le s.ft
  refine ⟨node, root, n, ?_, ?_, hok.rootLast, hn, ?_⟩
  · rw [symbols_length]; exact hcount
  · simp only [Config.nodeCap]; omega
  · rw [hfreq]; exact hexec

/-- Settles O24: the arena's invariant and the leaves' place are kept by every merge. -/
theorem builtArenaIsOrderedAndSummed : Obligations.BuiltArenaIsOrderedAndSummed := by
  intro s hne
  obtain ⟨node, root, t, hok, -, hexec⟩ := execBuildTree_built (tablePairs_ne_nil hne)
  obtain ⟨tail, hnode, htail⟩ := hok.leaves
  refine ⟨_, hexec, hok.arena, fun k sym c hk => ?_, fun k n hk hn => htail n ?_⟩
  · have hlt : k < ((tablePairs s.ft).map leafOf).length := by
      rw [List.length_map]; exact (List.getElem?_eq_some_iff.1 hk).1
    rw [respond_node, builtState_node, hnode, List.getElem?_append_left hlt, List.getElem?_map, hk]
    rfl
  · rw [symbols_length, ← List.length_map (f := leafOf)] at hk
    rw [respond_node, builtState_node, hnode, List.getElem?_append_right hk] at hn
    exact List.mem_of_getElem? hn

/-- Settles O25: at the end of the merge loop the root alone is owned by no entry. -/
theorem eachNodeHasOneParent : Obligations.EachNodeHasOneParent := by
  intro s hne
  obtain ⟨node, root, t, hok, -, hexec⟩ := execBuildTree_built (tablePairs_ne_nil hne)
  exact ⟨_, hexec, hok.own⟩

/-- Settles O26: the root's frequency is the sum of the leaves', and no sum wraps. -/
theorem frequencyIsConserved : Obligations.FrequencyIsConserved := by
  intro s hne
  obtain ⟨node, root, t, hok, -, hexec⟩ := execBuildTree_built (tablePairs_ne_nil hne)
  obtain ⟨n, hn, hfreq⟩ := rootNode_built hok s
  refine ⟨_, n, hexec, hn, ?_, ?_⟩
  · rw [hfreq]; exact hok.total
  · rw [respond_rsp, rspPrio_word]; exact hok.total

/-! ## BUILD_CODES and ENCODE under the invariant -/

theorem treeOk_valid {s : State} (h : treeOk s) (hv : s.treeValid = true) :
    ∃ root, s.root = some root ∧ builtFrom s.ft = some (s.node, root) := by
  simp only [treeOk, hv] at h
  exact h.2

theorem builtOk_leaves_length {ft : Table Count} {node : List Node} {root : NodeIdx} {t : HTree}
    (h : BuiltOk ft node root t) : t.leaves.length = (symbols ft).length := by
  rw [h.perm.length_eq, leafPairs, List.length_map, symbols_length]

/-- With two or more symbols a code is a path of the tree, which leads to its leaf (42_code_derivation.md R130). -/
theorem codesFor_followPath {ft : Table Count} {node : List Node} {root : NodeIdx} {t : HTree} {ct : Table Code}
    (hok : BuiltOk ft node root t) (hcodes : CodesFor ft node root t ct) (htwo : 2 ≤ (symbols ft).length)
    {sym : Symbol} {c : Code} (hc : tableGet ct sym = some c) :
    ∃ f y, followPath node root c = some (.leaf sym f y) := by
  cases t with
  | leaf s f =>
    have hlen := builtOk_leaves_length hok
    simp only [HTree.leaves, List.length_singleton] at hlen
    omega
  | node l r f => exact followPath_of_mem hok.isTree ((hcodes.path l r f rfl sym c).1 hc)

/-- Settles O31: the codes are the paths of the tree, and each path leads to its leaf. -/
theorem codesAreRootToLeafPaths : Obligations.CodesAreRootToLeafPaths := by
  intro s ⟨_, htree, _⟩ hv htwo
  obtain ⟨root, hroot, -⟩ := treeOk_valid htree hv
  obtain ⟨ct, -, hexec, -, hcodes⟩ := execBuildCodes_ok htree
  obtain ⟨t, hok, hfor⟩ := hcodes root hroot
  exact ⟨_, root, hexec, hroot, fun sym c hc => codesFor_followPath hok hfor htwo hc⟩

/-- A code table with an entry is the one of the tree that the frequency table determines (10_state.md R41). -/
theorem inv_codes {s : State} (h : s.Inv) {b : Byte} (hb : (tableGet s.ct b).isSome = true) :
    ∃ node root, builtFrom s.ft = some (node, root) ∧ treeCodes node root = .ok s.ct := by
  obtain ⟨-, htree, hcodes, -⟩ := h
  rcases hcodes with hempty | ⟨hv, hcodes⟩
  · simp [hempty] at hb
  · obtain ⟨root, hroot, hfrom⟩ := treeOk_valid htree hv
    refine ⟨s.node, root, hfrom, ?_⟩
    simpa only [buildCodes, hv, hroot, if_true] using hcodes

theorem inv_codes_unique {s s' : State} (hs : s.Inv) (hs' : s'.Inv) (hft : s.ft = s'.ft) {b : Byte}
    (hb : (tableGet s.ct b).isSome = true) (hb' : (tableGet s'.ct b).isSome = true) : s.ct = s'.ct := by
  obtain ⟨node, root, hfrom, hcodes⟩ := inv_codes hs hb
  obtain ⟨node', root', hfrom', hcodes'⟩ := inv_codes hs' hb'
  rw [← hft, hfrom, Option.some.injEq, Prod.mk.injEq] at hfrom'
  obtain ⟨rfl, rfl⟩ := hfrom'
  exact Except.ok.inj (hcodes.symm.trans hcodes')

/-- Where every byte of `IN` has a code, ENCODE appends its whole emission (44_container_format.md R164). -/
theorem execEncode_mapped {s : State} (h : ∀ b ∈ s.inp, (tableGet s.ct b).isSome = true) :
    execEncode s = .next (respondOk (deliver (encodeEmission s).1 (consumeIn s))) := by
  rcases execEncode_cases s with ⟨-, p, pad, hpack, hexec⟩ | ⟨sym, p, hmem, hget, -⟩
  · simpa only [encodeEmission, hpack] using hexec
  · have hsome := h sym hmem
    rw [hget] at hsome
    cases hsome

/-- Settles O38: an input that is not empty needs a code table with an entry, which the frequency table determines. -/
theorem encodeOutputIsAFunction : Obligations.EncodeOutputIsAFunction := by
  intro s s' hs hs' hft hinp hne hmapped hmapped'
  obtain ⟨b, hb⟩ := List.exists_mem_of_ne_nil _ hne
  have hct := inv_codes_unique hs hs' hft (hmapped b hb) (hmapped' b (hinp ▸ hb))
  have hemission : encodeEmission s = encodeEmission s' := by simp only [encodeEmission, hft, hinp, hct]
  refine ⟨(encodeEmission s).1, _, _, execEncode_mapped hmapped, execEncode_mapped hmapped', rfl, ?_⟩
  rw [hemission]
  rfl

/-! ## What no command does -/

theorem deliverPrefix_out (e : List Byte) (s : State) : ∃ k, (deliverPrefix e s).out = s.out ++ e.take k := by
  obtain ⟨k, d, h⟩ := deliverPrefix_spec e s
  exact ⟨k, by rw [h]⟩

/-- Every way a command ends leaves the old bytes of `OUT` first (20_memory.md R50, R54). -/
theorem commandEnds_out {i : Instr} {s t : State} (h : CommandEnds i s t) : ∃ e, t.out = s.out ++ e := by
  cases h with
  | encode | decode => exact ⟨_, rfl⟩
  | encodeUnmapped | decodeBadPayload =>
    obtain ⟨k, hout⟩ := deliverPrefix_out _ _
    exact ⟨_, hout⟩
  | _ => exact ⟨[], (List.append_nil _).symm⟩

theorem commandEnds_streams {i : Instr} {s t : State} (h : CommandEnds i s t) (hencode : i ≠ .encode)
    (hdecode : i ≠ .decode) : t.out = s.out ∧ t.inp = s.inp := by
  cases h with
  | encode | encodeUnmapped => exact absurd rfl hencode
  | decodeNoHeader | decodeEmptyTable | decode | decodeBadPayload => exact absurd rfl hdecode
  | _ => exact ⟨rfl, rfl⟩

/-- Settles O51, by the ways a command can end. -/
theorem commandsOnlyAppendToOut : Obligations.CommandsOnlyAppendToOut := fun _ _ _ h =>
  ⟨commandEnds_out (commandEnds_of_exec h), commandEnds_streams (commandEnds_of_exec h)⟩

theorem rspStatus_raise_ne_ok (r : Raise) (s : State) : rspStatus (raise r s).rsp ≠ statusOk := by
  rw [raise_rsp, rspStatus_word]
  exact statusCode_ne_ok r

theorem commandEnds_draws {i : Instr} {s t : State} (h : CommandEnds i s t) (hdraws : t.draws ≠ s.draws) :
    i = .pqPop ∨ ((i = .encode ∨ i = .decode) ∧ rspStatus t.rsp ≠ statusOk) := by
  cases h with
  | pqPop => exact .inl rfl
  | encodeUnmapped => exact .inr ⟨.inl rfl, rspStatus_raise_ne_ok _ _⟩
  | decodeBadPayload => exact .inr ⟨.inr rfl, rspStatus_raise_ne_ok _ _⟩
  | _ => exact absurd rfl hdraws

/-- Settles O56, by the ways a command can end: all but a pop and a faulting stream command keep the count. -/
theorem freeChoicesAreDrawnOnlyWhereOpen : Obligations.FreeChoicesAreDrawnOnlyWhereOpen :=
  fun _ _ _ h => commandEnds_draws (commandEnds_of_exec h)

/-! ## The response register is not read (10_state.md R37) -/

/-- `RSP` is the given word. -/
def withRsp (w : Response) (s : State) : State := { s with rsp := w }

@[simp] theorem withRsp_pq (w : Response) (s : State) : (withRsp w s).pq = s.pq := rfl
@[simp] theorem withRsp_node (w : Response) (s : State) : (withRsp w s).node = s.node := rfl
@[simp] theorem withRsp_root (w : Response) (s : State) : (withRsp w s).root = s.root := rfl
@[simp] theorem withRsp_inp (w : Response) (s : State) : (withRsp w s).inp = s.inp := rfl
@[simp] theorem withRsp_draws (w : Response) (s : State) : (withRsp w s).draws = s.draws := rfl

@[simp] theorem raise_withRsp (r : Raise) (w : Response) (s : State) : raise r (withRsp w s) = raise r s := rfl

@[simp] theorem stopWith_withRsp (e : Stop) (w : Response) (s : State) : stopWith e (withRsp w s) = stopWith e s := by
  cases e <;> rfl

@[simp] theorem deliverPrefix_withRsp (e : List Byte) (w : Response) (s : State) :
    deliverPrefix e (withRsp w s) = withRsp w (deliverPrefix e s) := by
  cases e <;> rfl

/-- The builder carries `RSP` through. -/
theorem buildTree_withRsp (co : ChildOrder) (w : Response) (s : State) :
    buildTree co (withRsp w s) = (buildTree co s).map (withRsp w) := by
  by_cases hempty : tablePairs s.ft = []
  · rw [buildTree_empty co s hempty, buildTree_empty co (withRsp w s) hempty]
    rfl
  · obtain ⟨node, root, -, -, hbuild, -⟩ := buildTree_ok co s.ft hempty
    rw [hbuild s rfl, hbuild (withRsp w s) rfl]
    rfl

theorem decodePayload_withRsp (rest : List Byte) (w : Response) (s : State) :
    decodePayload rest (withRsp w s) = decodePayload rest s := by
  cases hroot : s.root with
  | none => simp only [decodePayload, withRsp_root, hroot]
  | some root =>
    simp only [decodePayload, withRsp_root, withRsp_node, hroot]
    split
    · rfl
    · simp only [deliverPrefix_withRsp, stopWith_withRsp]

theorem execPqPush_withRsp (prio : Prio) (tie : Tie) (val : Val) (w : Response) (s : State) :
    execPqPush prio tie val (withRsp w s) = execPqPush prio tie val s := by
  simp only [execPqPush, withRsp_pq, raise_withRsp]
  rfl

theorem execPqPop_withRsp (w : Response) (s : State) : execPqPop (withRsp w s) = execPqPop s := by
  simp only [execPqPop, withRsp_pq, withRsp_draws, raise_withRsp]
  rfl

theorem execBuildTree_withRsp (w : Response) (s : State) : execBuildTree (withRsp w s) = execBuildTree s := by
  simp only [execBuildTree, buildTree_withRsp]
  cases buildTree Config.childOrder s with
  | error e => exact stopWith_withRsp e w s
  | ok t => rfl

theorem execBuildCodes_withRsp (w : Response) (s : State) : execBuildCodes (withRsp w s) = execBuildCodes s := by
  simp only [execBuildCodes, show buildCodes (withRsp w s) = buildCodes s from rfl, stopWith_withRsp]
  rfl

theorem execEncode_withRsp (w : Response) (s : State) : execEncode (withRsp w s) = execEncode s := by
  simp only [execEncode, show encodeEmission (withRsp w s) = encodeEmission s from rfl,
    show consumeIn (withRsp w s) = withRsp w (consumeIn s) from rfl, deliverPrefix_withRsp, raise_withRsp]
  rfl

theorem execDecode_withRsp (w : Response) (s : State) : execDecode (withRsp w s) = execDecode s := by
  have hstart : ∀ t, withFt t (consumeIn (decodeStart (withRsp w s))) =
      withRsp w (withFt t (consumeIn (decodeStart s))) := fun _ => rfl
  simp only [execDecode, withRsp_inp]
  cases hdrParse s.inp with
  | error r => rfl
  | ok q =>
    simp only [hstart, buildTree_withRsp]
    cases buildTree Config.childOrder (withFt q.1 (consumeIn (decodeStart s))) with
    | error e => exact stopWith_withRsp e w _
    | ok t => exact decodePayload_withRsp q.2 w t

theorem exec_withRsp (i : Instr) (w : Response) (s : State) : exec i (withRsp w s) = exec i s := by
  cases i with
  | pqClear | pqSize | ftClear | ftWrite => rfl
  | pqPush prio tie val => exact execPqPush_withRsp prio tie val w s
  | pqPop => exact execPqPop_withRsp w s
  | buildTree => exact execBuildTree_withRsp w s
  | buildCodes => exact execBuildCodes_withRsp w s
  | encode => exact execEncode_withRsp w s
  | decode => exact execDecode_withRsp w s

/-- Settles O55: every command writes `RSP` whole, so the word it held before is gone. -/
theorem responseRegisterIsNeverRead : Obligations.ResponseRegisterIsNeverRead :=
  fun i s w => exec_withRsp i w s

/-! ## Reset -/

/-- Settles O1: the tables are empty tables, and every other place is as the record of reset has it. -/
theorem resetHoldsNothingBuilt : Obligations.ResetHoldsNothingBuilt :=
  ⟨tableGet_empty, rfl, rfl, rfl, rfl, fun _ => rfl, tableGet_empty, rfl, rfl, rfl, by decide⟩

/-- Settles O10: the step performs the reset, whose state is written out field by field. -/
theorem resetMoveRestoresBlock : Obligations.ResetMoveRestoresBlock :=
  fun _ _ hmoves => step_of_moves_cons hmoves

end Sys2Proof.Machine

namespace Sys2Proof.Machine

/-! ## The payload's bits: whole bytes and what is left over (44_container_format.md R162) -/

/-- Bits that end in a padding to the next byte boundary fill the least number of bytes that holds them. -/
theorem length_of_padded {p : List Byte} {bits : List Bit} {n : Nat}
    (h : streamBits p = bits ++ List.replicate n false) (hn : n = (8 - bits.length % 8) % 8) :
    p.length = (bits.length + 7) / 8 := by
  have hlen := congrArg List.length h
  rw [streamBits_length, List.length_append, List.length_replicate] at hlen
  omega

/-- Where less than a byte is left over, the bytes before it hold every whole byte of the bits. -/
theorem streamBits_eq_take {p : List Byte} {buf bits : List Bit} (h : streamBits p ++ buf = bits)
    (hbuf : buf.length < 8) : streamBits p = bits.take (8 * (bits.length / 8)) := by
  have hwhole : 8 * (bits.length / 8) = (streamBits p).length := by
    rw [← h, List.length_append, streamBits_length]
    omega
  rw [hwhole, ← h, List.take_left]

/-! ## ENCODE by what its payload came to (44_container_format.md R164) -/

theorem execEncode_of_pack_ok {s : State} {e : List Byte} (h : payloadPack s.ct s.inp = (e, none)) :
    execEncode s = .next (respondOk (deliver (hdrSerialize s.ft ++ e) (consumeIn s))) := by
  simp only [execEncode, encodeEmission, h]

theorem execEncode_of_pack_raise {s : State} {e : List Byte} {r : Raise}
    (h : payloadPack s.ct s.inp = (e, some r)) :
    execEncode s = .next (raise r (deliverPrefix (hdrSerialize s.ft ++ e) (consumeIn s))) := by
  simp only [execEncode, encodeEmission, h]

/-- Settles O32: the packing from an empty buffer loses no bit, and the padding fixes the number of bytes. -/
theorem encodePacksEveryCode : Obligations.EncodePacksEveryCode := by
  intro s hmapped
  obtain ⟨p, pad, hpack, hbits, hpad⟩ := payloadPackFrom_ok s.ct [] s.inp (Nat.succ_pos 7) hmapped
  rw [List.nil_append] at hbits hpad
  refine ⟨p, pad, hbits, hpad, length_of_padded hbits hpad, ?_⟩
  rw [List.append_assoc]
  exact execEncode_of_pack_ok hpack

/-- Settles O33: the bytes completed before the unmapped one hold all the code bits but a buffer of less than eight, and
any prefix of the emission may reach `OUT`. -/
theorem encodeStopsAtUnmappedSymbol : Obligations.EncodeStopsAtUnmappedSymbol := by
  intro s pre post sym hinp hmapped hsym
  obtain ⟨p, buf, hpack, hbits, hbuf⟩ := payloadPackFrom_unmapped s.ct [] pre sym post (Nat.succ_pos 7) hmapped hsym
  rw [← hinp] at hpack
  obtain ⟨k, draws, hprefix⟩ := deliverPrefix_spec (hdrSerialize s.ft ++ p) (consumeIn s)
  have hexec := execEncode_of_pack_raise hpack
  rw [hprefix] at hexec
  exact ⟨p, k, draws, streamBits_eq_take hbits hbuf, hexec⟩

/-! ## The host's moves (20_memory.md R52, R53) -/

theorem step_of_moves_nil {s : State} (h : s.moves = []) : step s = .next s := by
  simp only [step, nextMove, h]

theorem outDrain_of_le {k : Nat} {s : State} (h : k ≤ s.out.length) :
    outDrain k s = .next { s with out := s.out.drop k, received := s.received ++ s.out.take k } :=
  if_pos h

theorem outDrain_of_lt {k : Nat} {s : State} (h : s.out.length < k) : outDrain k s = .refused .drainBeyondOut :=
  if_neg (Nat.not_le.2 h)

/-- Settles O9: the step performs the move, and a drain goes through exactly where `OUT` holds that many bytes. -/
theorem hostMovesTakeEffect : Obligations.HostMovesTakeEffect := by
  intro s rest
  refine ⟨fun bytes hmoves => ?append, fun k hmoves hk => ?drain, fun k hmoves hk => ?beyond, step_of_moves_nil⟩
  case append => exact step_of_moves_cons hmoves
  case drain => exact (step_of_moves_cons hmoves).trans (outDrain_of_le (s := { s with moves := rest }) hk)
  case beyond => exact (step_of_moves_cons hmoves).trans (outDrain_of_lt (s := { s with moves := rest }) hk)

end Sys2Proof.Machine

namespace Sys2Proof

/-! ## The decoder accepts exactly the commands' own fields (30_encoding.md R71, R74, R76) -/

/-- The fields of PQ_PUSH: everything but `OPC` and `RSV` is operand. -/
theorem format_pqPush {f : Format} (hopc : f.opc = 0x02#8) (hrsv : f.rsv = 0) :
    (Instr.pqPush f.prio f.tie f.val).format = f := by
  obtain ⟨opc, tie, val, rsv, prio⟩ := f
  obtain rfl : opc = 0x02#8 := hopc
  obtain rfl : rsv = 0 := hrsv
  rfl

/-- The fields of FT_WRITE: a count that fits 64 bits is the whole of `PRIO`. -/
theorem format_ftWrite {f : Format} (hopc : f.opc = 0x11#8) (hrsv : f.rsv = 0) (hval : f.val = 0)
    (hcount : f.prio.extractLsb' 64 8 = 0) :
    (Instr.ftWrite f.tie (f.prio.extractLsb' 0 64)).format = f := by
  obtain ⟨opc, tie, val, rsv, prio⟩ := f
  obtain rfl : opc = 0x11#8 := hopc
  obtain rfl : rsv = 0 := hrsv
  obtain rfl : val = 0 := hval
  simp only [Instr.format, Instr.opc, prio_of_count hcount]
  rfl

/-- A command without operands: its fields are its `OPC` and zeros. -/
def Instr.isBare (i : Instr) : Prop := i.format = ⟨i.opc, 0, 0, 0, 0⟩

theorem format_bare {f : Format} {i : Instr} (hi : i.isBare) (hopc : f.opc = i.opc) (hrsv : f.rsv = 0)
    (htie : f.tie = 0) (hval : f.val = 0) (hprio : f.prio = 0) : i.format = f := by
  rw [hi, ← hopc, ← hrsv, ← htie, ← hval, ← hprio]

theorem format_of_decodeBare {f : Format} {i j : Instr} (h : decodeBare f i = .ok j) (hopc : f.opc = i.opc)
    (hi : i.isBare) : j.format = f := by
  obtain ⟨rfl, hrsv, htie, hval, hprio⟩ := decodeBare_ok.1 h
  exact format_bare hi hopc hrsv htie hval hprio

theorem format_of_decodePush {f : Format} {j : Instr} (h : decodePush f = .ok j) (hopc : f.opc = 0x02#8) :
    j.format = f := by
  obtain ⟨rfl, hrsv⟩ := decodePush_ok.1 h
  exact format_pqPush hopc hrsv

theorem format_of_decodeWrite {f : Format} {j : Instr} (h : decodeWrite f = .ok j) (hopc : f.opc = 0x11#8) :
    j.format = f := by
  obtain ⟨rfl, hrsv, hval, hcount⟩ := decodeWrite_ok.1 h
  exact format_ftWrite hopc hrsv hval hcount

/-- The decoder drops no bit of the fields. -/
theorem format_of_decodeFormat {f : Format} {i : Instr} (h : decodeFormat f = .ok i) : i.format = f := by
  simp only [decodeFormat] at h
  split_ifs at h with h01 h02 h03 h04 h10 h11 h20 h21 h30 h31
  · exact format_of_decodeBare h h01 rfl
  · exact format_of_decodePush h h02
  · exact format_of_decodeBare h h03 rfl
  · exact format_of_decodeBare h h04 rfl
  · exact format_of_decodeBare h h10 rfl
  · exact format_of_decodeWrite h h11
  · exact format_of_decodeBare h h20 rfl
  · exact format_of_decodeBare h h21 rfl
  · exact format_of_decodeBare h h30 rfl
  · exact format_of_decodeBare h h31 rfl

/-- The decoder accepts the fields of every command. -/
theorem decodeFormat_format (i : Instr) : decodeFormat i.format = .ok i := by
  cases i with
  | ftWrite sym count =>
    obtain ⟨hhigh, hlow⟩ := count_extends count
    exact (decodeWrite_ok (f := (Instr.ftWrite sym count).format)).2
      ⟨congrArg (Instr.ftWrite sym) hlow, rfl, rfl, hhigh⟩
  | _ => rfl

/-- Decoding and encoding are inverse: a word decodes to a command exactly where it is the command's descriptor. -/
theorem decode_eq_ok_iff {d : Descriptor} {i : Instr} : decode d = .ok i ↔ encode i = d := by
  rw [encode_eq_iff]
  constructor
  · exact format_of_decodeFormat
  · intro h
    rw [decode, ← h, decodeFormat_format]

/-- Settles O3: the decoder answers a command's own fields with the command, operands and all. -/
theorem decodeOfEncode : Obligations.DecodeOfEncode := fun _ => decode_eq_ok_iff.2 rfl

/-- Settles O4: what an arm of the decoder has not tested for zero it returns as an operand. -/
theorem encodeOfDecode : Obligations.EncodeOfDecode := fun _ _ => decode_eq_ok_iff.1

/-! ## The legality checks (30_encoding.md R76) -/

/-- Every command's descriptor is legal and selects the command's row. -/
theorem matchesRow (i : Instr) : Laws.MatchesRow.Statement i := by
  cases i with
  | pqClear => exact Laws.MatchesRow.pqClear
  | pqPush prio tie val => exact Laws.MatchesRow.pqPush prio tie val
  | pqPop => exact Laws.MatchesRow.pqPop
  | pqSize => exact Laws.MatchesRow.pqSize
  | ftClear => exact Laws.MatchesRow.ftClear
  | ftWrite sym count => exact Laws.MatchesRow.ftWrite sym count
  | buildTree => exact Laws.MatchesRow.buildTree
  | buildCodes => exact Laws.MatchesRow.buildCodes
  | encode => exact Laws.MatchesRow.encode
  | decode => exact Laws.MatchesRow.decode

theorem wellFormed_iff (f : Format) :
    f.wellFormed = true ↔
      f.opc ∈ [0x01#8, 0x02#8, 0x03#8, 0x04#8, 0x10#8, 0x11#8, 0x20#8, 0x21#8, 0x30#8, 0x31#8] ∧ f.rsv = 0 ∧
        (f.opc = 0x02#8 ∨ f.opc = 0x11#8 ∨ f.tie = 0) ∧ (f.opc = 0x02#8 ∨ f.val = 0) ∧
        (f.opc = 0x02#8 ∨ f.opc = 0x11#8 ∨ f.prio = 0) ∧ (f.opc = 0x11#8 → f.prio.extractLsb' 64 8 = 0) := by
  simp only [Format.wellFormed, Format.opcKnown, Format.rsvZero, Format.tieUsed, Format.valUsed, Format.prioUsed,
    Format.countFits, Bool.and_eq_true, Bool.or_eq_true, beq_iff_eq, bne_iff_ne, List.contains_iff_mem, and_assoc,
    or_assoc, ne_eq, imp_iff_not_or]

/-- With the `OPC` of a row without operands, legal fields are the fields of that row's command. -/
theorem format_bare_of_wellFormed {f : Format} {i : Instr} (h : f.wellFormed = true) (hi : i.isBare)
    (hopc : f.opc = i.opc) (h02 : i.opc ≠ 0x02#8) (h11 : i.opc ≠ 0x11#8) : i.format = f := by
  obtain ⟨-, hrsv, htie, hval, hprio, -⟩ := (wellFormed_iff f).1 h
  rw [← hopc] at h02 h11
  exact format_bare hi hopc hrsv ((htie.resolve_left h02).resolve_left h11) (hval.resolve_left h02)
    ((hprio.resolve_left h02).resolve_left h11)

/-- Legal fields are the fields of a command, the one its `OPC` names. -/
theorem exists_format_of_wellFormed {f : Format} (h : f.wellFormed = true) : ∃ i : Instr, i.format = f := by
  obtain ⟨hopc, hrsv, -, hval, -, hcount⟩ := (wellFormed_iff f).1 h
  simp only [List.mem_cons, List.not_mem_nil, or_false] at hopc
  rcases hopc with ho | ho | ho | ho | ho | ho | ho | ho | ho | ho
  · exact ⟨.pqClear, format_bare_of_wellFormed h rfl ho (by decide) (by decide)⟩
  · exact ⟨_, format_pqPush ho hrsv⟩
  · exact ⟨.pqPop, format_bare_of_wellFormed h rfl ho (by decide) (by decide)⟩
  · exact ⟨.pqSize, format_bare_of_wellFormed h rfl ho (by decide) (by decide)⟩
  · exact ⟨.ftClear, format_bare_of_wellFormed h rfl ho (by decide) (by decide)⟩
  · exact ⟨_, format_ftWrite ho hrsv (hval.resolve_left (by rw [ho]; decide)) (hcount ho)⟩
  · exact ⟨.buildTree, format_bare_of_wellFormed h rfl ho (by decide) (by decide)⟩
  · exact ⟨.buildCodes, format_bare_of_wellFormed h rfl ho (by decide) (by decide)⟩
  · exact ⟨.encode, format_bare_of_wellFormed h rfl ho (by decide) (by decide)⟩
  · exact ⟨.decode, format_bare_of_wellFormed h rfl ho (by decide) (by decide)⟩

/-- Settles O6: legal fields and decoded words are both the fields of a command. -/
theorem wellFormedDescriptorsDecode : Obligations.WellFormedDescriptorsDecode := by
  intro d
  constructor
  · intro h
    obtain ⟨i, hi⟩ := exists_format_of_wellFormed h
    exact ⟨i, decode_eq_ok_iff.2 ((encode_eq_iff i d).2 hi)⟩
  · rintro ⟨i, hi⟩
    rw [← (encode_eq_iff i d).1 (decode_eq_ok_iff.1 hi)]
    exact (matchesRow i).1

/-! ## The mask and match columns (30_encoding.md R74) -/

/-- A row whose mask is all ones selects the one word of its match column. -/
theorem encode_of_selects_exact {i : Instr} {d : Descriptor} (hmask : i.row.mask = BitVec.allOnes 128)
    (hmatch : i.row.pattern = encode i) (h : i.row.selects d = true) : encode i = d := by
  rw [OpcodeRow.selects, beq_iff_eq, hmask, hmatch, BitVec.and_allOnes] at h
  exact h.symm

/-- The mask of FT_WRITE's count covers the bits above 64. -/
theorem high_of_and_mask {p : Prio} (h : p &&& 0xFF0000000000000000#72 = 0) : p.extractLsb' 64 8 = 0 := by
  have hmask : ∀ k < 8, (0xFF0000000000000000#72).getLsbD (64 + k) = true := by decide
  ext k hk
  have hbit := congrArg (fun q : Prio => q.getLsbD (64 + k)) h
  simpa [hmask k hk, hk] using hbit

theorem encode_of_selects_pqPush {d : Descriptor} (h : (Instr.pqPush 0 0 0).row.selects d = true) :
    encode (.pqPush (Format.ofWord d).prio (Format.ofWord d).tie (Format.ofWord d).val) = d := by
  rw [← format_toWord_ofWord d,
    selects_iff _ ⟨BitVec.allOnes 8, 0, 0, BitVec.allOnes 24, 0⟩ ⟨0x02, 0, 0, 0, 0⟩ _ rfl rfl] at h
  simp only [formatAnd, BitVec.and_allOnes, Format.mk.injEq] at h
  obtain ⟨hopc, -, -, hrsv, -⟩ := h
  exact (encode_eq_iff _ d).2 (format_pqPush hopc hrsv)

theorem encode_of_selects_ftWrite {d : Descriptor} (h : (Instr.ftWrite 0 0).row.selects d = true) :
    encode (.ftWrite (Format.ofWord d).tie ((Format.ofWord d).prio.extractLsb' 0 64)) = d := by
  rw [← format_toWord_ofWord d,
    selects_iff _ ⟨BitVec.allOnes 8, 0, BitVec.allOnes 16, BitVec.allOnes 24, 0xFF0000000000000000⟩
      ⟨0x11, 0, 0, 0, 0⟩ _ rfl rfl] at h
  simp only [formatAnd, BitVec.and_allOnes, Format.mk.injEq] at h
  obtain ⟨hopc, -, hval, hrsv, hprio⟩ := h
  exact (encode_eq_iff _ d).2 (format_ftWrite hopc hrsv hval (high_of_and_mask hprio))

/-- A word that selects a row is the descriptor of a command of that row. -/
theorem exists_encode_of_selects {r : OpcodeRow} {d : Descriptor} (hr : r ∈ opcodeTable) (h : r.selects d = true) :
    ∃ i, encode i = d ∧ i.row = r := by
  simp only [opcodeTable, List.map_cons, List.map_nil, List.mem_cons, List.not_mem_nil, or_false] at hr
  rcases hr with rfl | rfl | rfl | rfl | rfl | rfl | rfl | rfl | rfl | rfl
  · exact ⟨.pqClear, encode_of_selects_exact (by decide) (by decide) h, rfl⟩
  · exact ⟨_, encode_of_selects_pqPush h, rfl⟩
  · exact ⟨.pqPop, encode_of_selects_exact (by decide) (by decide) h, rfl⟩
  · exact ⟨.pqSize, encode_of_selects_exact (by decide) (by decide) h, rfl⟩
  · exact ⟨.ftClear, encode_of_selects_exact (by decide) (by decide) h, rfl⟩
  · exact ⟨_, encode_of_selects_ftWrite h, rfl⟩
  · exact ⟨.buildTree, encode_of_selects_exact (by decide) (by decide) h, rfl⟩
  · exact ⟨.buildCodes, encode_of_selects_exact (by decide) (by decide) h, rfl⟩
  · exact ⟨.encode, encode_of_selects_exact (by decide) (by decide) h, rfl⟩
  · exact ⟨.decode, encode_of_selects_exact (by decide) (by decide) h, rfl⟩

/-- The row of a command does not depend on its operands. -/
theorem row_mem_opcodeTable (i : Instr) : i.row ∈ opcodeTable := by
  cases i <;> simp [opcodeTable, Instr.row]

theorem selects_of_decode {d : Descriptor} {i : Instr} (h : decode d = .ok i) : i.row.selects d = true := by
  rw [← decode_eq_ok_iff.1 h]
  exact (matchesRow i).2

theorem decode_error_iff {d : Descriptor} : (∃ e, decode d = .error e) ↔ ∀ i, decode d ≠ .ok i := by
  cases decode d with
  | error e => simp
  | ok i => simp

/-- Settles O5: a selected row gives the command, and a decoded word selects its command's row. -/
theorem decodeSelectsTableRow : Obligations.DecodeSelectsTableRow := by
  intro d
  have hrow : ∀ r ∈ opcodeTable, r.selects d = true ↔ ∃ i, decode d = .ok i ∧ i.row = r := by
    intro r hr
    constructor
    · intro h
      obtain ⟨i, hi, hir⟩ := exists_encode_of_selects hr h
      exact ⟨i, decode_eq_ok_iff.2 hi, hir⟩
    · rintro ⟨i, hi, rfl⟩
      exact selects_of_decode hi
  refine ⟨hrow, decode_error_iff.trans ⟨fun hillegal r hr => ?_, fun hnone i hi => ?_⟩⟩
  · rw [Bool.eq_false_iff]
    intro h
    obtain ⟨i, hi, -⟩ := (hrow r hr).1 h
    exact hillegal i hi
  · have hselected := selects_of_decode hi
    rw [hnone _ (row_mem_opcodeTable i)] at hselected
    cases hselected

/-- Settles O2: fixed words, evaluated. -/
theorem workedWordsDecode : Obligations.WorkedWordsDecode := by
  unfold Obligations.WorkedWordsDecode
  decide

end Sys2Proof

namespace Sys2Proof.Machine

/-! ## Responses (30_encoding.md R72, 60_exceptions.md R181) -/

theorem responseOk_of_respond (tie : Tie) (val : Val) (prio : Prio) (s : State) :
    responseOk (respond tie val prio s).rsp :=
  responseOk_ok tie val prio

theorem responseOk_of_raise (r : Raise) (s : State) : responseOk (raise r s).rsp :=
  responseOk_raise r 0 0

/-- Every way a command ends writes the response last, as a success or as an error. -/
theorem commandEnds_responseOk {i : Instr} {s t : State} (h : CommandEnds i s t) : responseOk t.rsp := by
  cases h with
  | pqPushFull | pqPopEmpty | buildTreeEmpty | encodeUnmapped | decodeNoHeader | decodeEmptyTable | decodeBadPayload =>
    exact responseOk_of_raise _ _
  | _ => exact responseOk_of_respond _ _ _ _

/-- Settles O52, by the ways a command can end. -/
theorem responsesAreWellFormed : Obligations.ResponsesAreWellFormed :=
  fun _ _ _ h => commandEnds_responseOk (commandEnds_of_exec h)

/-! ## Commands issued while each ends `OK` (30_encoding.md R80) -/

theorem execWhileOk_cons {i : Instr} {s t : State} (h : exec i s = .next t) (hok : rspStatus t.rsp = statusOk)
    (is : List Instr) : execWhileOk (i :: is) s = execWhileOk is t := by
  simp only [execWhileOk, h, hok, if_true]

theorem rspStatus_respond (tie : Tie) (val : Val) (prio : Prio) (s : State) :
    rspStatus (respond tie val prio s).rsp = statusOk := by
  rw [respond_rsp, rspStatus_word]

/-! ## LOADFT -/

/-- A list of pairs put into a table: a symbol has its last value in the list, or else the one the table had. -/
theorem foldl_tableSet_last {α : Type} (ps : List (Symbol × α)) (t : Table α) (s : Symbol) :
    tableGet (ps.foldl (fun u p => tableSet u p.1 p.2) t) s =
      ((ps.reverse.find? fun p => p.1 = s).map Prod.snd).or (tableGet t s) := by
  induction ps generalizing t with
  | nil => rfl
  | cons p ps ih =>
    rw [List.foldl_cons, ih, tableGet_set, List.reverse_cons, List.find?_append]
    cases ps.reverse.find? fun p => p.1 = s with
    | some q => rfl
    | none =>
      by_cases hs : s = p.1
      · simp [hs]
      · simp [hs, Ne.symm hs]

/-- The writes of a list of pairs fold them into the table, and no tree becomes valid (41_tree_build.md R112). -/
theorem execWhileOk_ftWrites (ps : List (Symbol × Count)) (s : State) (hok : rspStatus s.rsp = statusOk)
    (hv : s.treeValid = false) :
    ∃ t, execWhileOk (ps.map fun p => .ftWrite p.1 p.2) s = .next t ∧ rspStatus t.rsp = statusOk ∧
      t.treeValid = false ∧ t.ft = ps.foldl (fun u p => tableSet u p.1 p.2) s.ft := by
  induction ps generalizing s with
  | nil => exact ⟨s, rfl, hok, hv, rfl⟩
  | cons p ps ih =>
    rw [List.map_cons, execWhileOk_cons (i := .ftWrite p.1 p.2) rfl (rspStatus_respond 0 0 0 _)]
    exact ih _ (rspStatus_respond 0 0 0 _) rfl

/-- Settles O19: after the clear the writes fold the pairs into an empty table. -/
theorem loadftLoadsTheTable : Obligations.LoadftLoadsTheTable := by
  intro pairs s
  rw [loadft, execWhileOk_cons (i := .ftClear) rfl (rspStatus_respond 0 0 0 _)]
  obtain ⟨t, hexec, hok, hv, hft⟩ := execWhileOk_ftWrites pairs (respondOk (clearDerived (clearFt s)))
    (rspStatus_respond 0 0 0 _) rfl
  refine ⟨t, hexec, hok, hv, fun sym => ?_⟩
  rw [hft, foldl_tableSet_last, respondOk_ft, clearDerived_ft, clearFt_ft, tableGet_empty, Option.or_none]

/-! ## A written header reads back (44_container_format.md R153, R155, R167) -/

theorem hdrPairs_ne_nil {ps : List (Symbol × Count)} (h : ps ≠ []) : hdrPairs ps ≠ [] := by
  cases ps with
  | nil => exact absurd rfl h
  | cons p ps =>
    cases ps with
    | nil => exact hdrPair_ne_nil p
    | cons q ps => exact List.append_ne_nil_of_left_ne_nil (hdrPair_ne_nil p) _

theorem hdrPairs_no_newline (ps : List (Symbol × Count)) : ∀ b ∈ hdrPairs ps, b ≠ 0x0A#8 := by
  rintro b hb rfl
  exact absurd (hdrPairs_bytes ps _ hb).1 (by decide)

/-- The parser folds the pairs of a written line into its table and goes on with the next line. -/
theorem hdrParseFrom_hdrPairs (t : Table Count) {ps : List (Symbol × Count)} (h : ps ≠ []) (rest : List Byte) :
    hdrParseFrom t [] (hdrPairs ps ++ 0x0A#8 :: rest) =
      hdrParseFrom (ps.foldl (fun u p => tableSet u p.1 p.2) t) [] rest := by
  rw [hdrParseFrom_line t _ (hdrPairs_no_newline ps), List.nil_append]
  simp only [hdrParseFrom, if_true, hdrPairs_ne_nil h, if_false, tokens_hdrPairs, fillTable_hdrPairs]

theorem hdrParseFrom_blank (t : Table Count) (rest : List Byte) :
    hdrParseFrom t [] (0x0A#8 :: rest) = .ok (t, rest) := by
  simp only [hdrParseFrom, if_true]

/-- The header of a table that is not empty reads back as the table, what follows it being left. -/
theorem hdrParse_hdrSerialize {ft : Table Count} (h : tablePairs ft ≠ []) (z : List Byte) :
    hdrParse (hdrSerialize ft ++ z) = .ok (ft, z) := by
  have hsplit : hdrSerialize ft ++ z = hdrPairs (tablePairs ft) ++ 0x0A#8 :: 0x0A#8 :: z := by
    simp only [hdrSerialize, List.append_assoc]
    rfl
  rw [hsplit, hdrParse, hdrParseFrom_hdrPairs _ h, foldl_tablePairs, hdrParseFrom_blank]

/-! ## COMPRESS, then DECODE (44_container_format.md R166) -/

theorem allMapped_of_codesFor {ft : Table Count} {node : List Node} {root : NodeIdx} {t : HTree} {ct : Table Code}
    (h : CodesFor ft node root t ct) {x : List Byte} (hx : ∀ b ∈ x, (tableGet ft b).isSome = true) :
    allMapped ct x :=
  fun b hb => (h.present b).trans (hx b hb)

/-- A padding count up to 7 lets the walk over the valid bits go ahead (43_bit_decoder.md R143). -/
theorem walkDecode_of_pad_le {pad : Byte} (h : pad.toNat ≤ 7) (node : List Node) (root : NodeIdx) (p : List Byte) :
    walkDecode node root p pad = walkBits node root root (validBits p pad) := by
  have hle : ¬ pad > 7 := Nat.not_lt.2 h
  rw [walkDecode, if_neg hle]

/-- The payload packed with the codes of a built tree unpacks over that tree to the input. -/
theorem payloadPack_unpack {ft : Table Count} {node : List Node} {root : NodeIdx} {t : HTree} {ct : Table Code}
    (hok : BuiltOk ft node root t) (hcodes : CodesFor ft node root t ct) {x : List Byte} (hx : allMapped ct x) :
    ∃ p, payloadPack ct x = (p, none) ∧ payloadUnpack node root p = (x, none) := by
  obtain ⟨p, pad, hpack, hbits, hpad⟩ := payloadPackFrom_ok ct [] x (Nat.succ_pos 7) hx
  refine ⟨p ++ [pad], hpack, ?_⟩
  calc payloadUnpack node root (p ++ [pad])
    _ = walkBits node root root (validBits p pad) := by
      rw [payloadUnpack_append, walkDecode_of_pad_le (by omega)]
    _ = walkBits node root root (codeBits ct x) := by rw [validBits_of_padded hbits, List.nil_append]
    _ = (x, none) := walkBits_codes hok hcodes x hx

/-- DECODE where the header gives a table with a tree and the payload unpacks whole (44_container_format.md R165). -/
theorem execDecode_of_unpack_ok {s : State} {ft : Table Count} {rest e : List Byte} {node : List Node} {root : NodeIdx}
    (hparse : hdrParse s.inp = .ok (ft, rest)) (hfrom : builtFrom ft = some (node, root))
    (hunpack : payloadUnpack node root rest = (e, none)) :
    execDecode s = .next (respondOk (deliver e (decodeBuilt ft node root s))) := by
  obtain ⟨hne, -⟩ := builtFrom_spec hfrom
  obtain ⟨node', root', -, -, hbuild, -⟩ := buildTree_ok Config.childOrder ft hne
  have hsame := (builtFrom_eq rfl (hbuild (withFt ft s) rfl)).symm.trans hfrom
  simp only [Option.some.injEq, Prod.mk.injEq] at hsame
  obtain ⟨rfl, rfl⟩ := hsame
  simp only [execDecode, hparse, hbuild (withFt ft (consumeIn (decodeStart s))) rfl, decodePayload, builtState_root,
    builtState_node, hunpack, decodeBuilt]

/-- COMPRESS on a table with an entry builds the table's own tree and codes, and where the input packs with them it ends
`OK` with header and payload appended. -/
theorem execWhileOk_compress {s : State} (hne : tablePairs s.ft ≠ []) :
    ∃ node root t ct, builtFrom s.ft = some (node, root) ∧ BuiltOk s.ft node root t ∧ CodesFor s.ft node root t ct ∧
      ∀ p, payloadPack ct s.inp = (p, none) →
        ∃ u, execWhileOk compress s = .next u ∧ rspStatus u.rsp = statusOk ∧
          u.out = s.out ++ (hdrSerialize s.ft ++ p) ∧ u.inp = [] := by
  obtain ⟨node, root, t₀, -, hfrom, htree⟩ := execBuildTree_built hne
  obtain ⟨ct, -, hcodes, -, hspec⟩ :=
    execBuildCodes_ok (s := respond 0 (valOfIndex node.length) t₀.freq (builtState node root s)) ⟨rfl, root, rfl, hfrom⟩
  obtain ⟨t, hok, hfor⟩ := hspec root rfl
  refine ⟨node, root, t, ct, hfrom, hok, hfor, fun p hpack => ?_⟩
  have hencode := execEncode_of_pack_ok
    (s := respondOk (withCt ct (respond 0 (valOfIndex node.length) t₀.freq (builtState node root s)))) hpack
  rw [compress, execWhileOk_cons (i := .buildTree) htree (rspStatus_respond _ _ _ _),
    execWhileOk_cons (i := .buildCodes) hcodes (rspStatus_respond 0 0 0 _),
    execWhileOk_cons (i := .encode) hencode (rspStatus_respond 0 0 0 _)]
  exact ⟨_, rfl, rspStatus_respond 0 0 0 _, rfl, rfl⟩

/-- Settles O44: the header gives back the table, so DECODE builds the tree whose codes packed the payload. -/
theorem compressThenDecodeIsIdentity : Obligations.CompressThenDecodeIsIdentity := by
  rintro s x hx rfl hmapped
  obtain ⟨b, hb⟩ := List.exists_mem_of_ne_nil _ hx
  have hne : tablePairs s.ft ≠ [] := tablePairs_ne_nil (List.ne_nil_of_mem ((mem_symbols s.ft b).2 (hmapped b hb)))
  obtain ⟨node, root, t, ct, hfrom, hok, hcodes, hcompress⟩ := execWhileOk_compress hne
  obtain ⟨p, hpack, hunpack⟩ := payloadPack_unpack hok hcodes (allMapped_of_codesFor hcodes hmapped)
  obtain ⟨u, hexec, hstatus, hout, hinp⟩ := hcompress p hpack
  refine ⟨hdrSerialize s.ft ++ p, u, hexec, hstatus, hout, hinp, fun v hv => ?_⟩
  have hparse : hdrParse v.inp = .ok (s.ft, p) := by rw [hv, hdrParse_hdrSerialize hne]
  exact ⟨_, execDecode_of_unpack_ok hparse hfrom hunpack, rspStatus_respond 0 0 0 _, rfl, rfl⟩

end Sys2Proof.Machine

namespace Sys2Proof.Machine

/-! ## The queue commands (40_priority_queue.md R92 to R104) -/

/-- Settles O11: clearing the queue and writing the response are the whole meaning. -/
theorem pqClearEmptiesQueue : Obligations.PqClearEmptiesQueue :=
  fun _ => rfl

/-- Settles O15: writing the response is the whole meaning. -/
theorem pqSizeReportsLength : Obligations.PqSizeReportsLength :=
  fun _ => rfl

/-- Settles O12: the two ends of a push exclude each other at `PQ_CAP`, and an insertion adds one occurrence. -/
theorem pqPushStoresOneEntry : Obligations.PqPushStoresOneEntry := by
  intro prio tie val s
  rcases execPqPush_cases prio tie val s with ⟨hroom, hexec⟩ | ⟨hfull, hexec⟩
  · exact ⟨fun _ => ⟨_, pqInsert_perm _ _, hexec⟩, fun hfull => absurd hfull (Nat.not_le.2 hroom)⟩
  · exact ⟨fun hroom => absurd hfull (Nat.not_le.2 hroom), fun _ => ⟨_, hexec⟩⟩

/-- On a queue that is not empty PQ_POP takes off what `pq_pop` finds and answers with it (40_priority_queue.md R103). -/
theorem execPqPop_of_ne_nil {s : State} (hne : s.pq ≠ []) :
    ∃ p, pqPop s.pq s.draws = some p ∧ execPqPop s =
      .next (respond p.entry.tie p.entry.val p.entry.prio { s with pq := p.pq, draws := p.draws }) :=
  (execPqPop_cases s).resolve_right fun ⟨hnil, _⟩ => hne hnil

/-- Settles O13: what a pop finds is minimal in the whole queue, so also against the entries it leaves. -/
theorem pqPopTakesAMinimalEntry : Obligations.PqPopTakesAMinimalEntry := by
  intro s
  constructor
  · intro hne
    obtain ⟨p, hpop, hexec⟩ := execPqPop_of_ne_nil hne
    have hmin := (pqPop_spec hpop).1
    have hperm := pqPop_perm hpop
    have hrest : ∀ e ∈ p.pq, keyLt e p.entry = false := fun e he =>
      hmin.2 e (hperm.mem_iff.2 (List.mem_cons_of_mem _ he))
    exact ⟨p.entry, p.pq, p.draws, hmin, hperm, hrest, hexec⟩
  · intro hnil
    rcases execPqPop_cases s with ⟨p, hpop, -⟩ | ⟨-, hexec⟩
    · rw [pqPop_eq_none.2 hnil] at hpop
      cases hpop
    · exact ⟨_, hexec⟩

/-- A minimal entry is `m` itself where `m` is in the queue and every other entry has a greater key. -/
theorem isMinimal_unique {m x : Entry} {pq : List Entry} (hm : m ∈ pq) (hall : ∀ e ∈ pq, e = m ∨ keyLt m e = true)
    (hx : isMinimal x pq) : x = m :=
  (hall x hx.1).resolve_right (Bool.eq_false_iff.1 (hx.2 m hm))

/-- Settles O14: whatever is drawn, the entry found is a minimal one, and only `m` is. -/
theorem pqPopOfUniqueMinimum : Obligations.PqPopOfUniqueMinimum := by
  intro s m hm hall
  obtain ⟨p, hpop, hexec⟩ := execPqPop_of_ne_nil (List.ne_nil_of_mem hm)
  obtain ⟨hmin, hpq⟩ := pqPop_spec hpop
  have hentry : p.entry = m := isMinimal_unique hm hall hmin
  rw [hpq, hentry] at hexec
  exact ⟨p.draws, hexec⟩

/-- Bulk loading depends on the collection of its items alone (40_priority_queue.md R95). -/
theorem pqBuildFrom_eq_of_perm {xs ys : List Entry} (h : xs.Perm ys) : pqBuildFrom xs = pqBuildFrom ys :=
  queue_ext (pqBuildFrom_wf xs) (pqBuildFrom_wf ys)
    ((pqBuildFrom_perm xs).trans (h.trans (pqBuildFrom_perm ys).symm))

/-- Pushing one by one into the empty queue is bulk loading from the other end of the list. -/
theorem foldl_pqInsert_eq_pqBuildFrom_reverse (pushed : List Entry) :
    pushed.foldl (fun q e => pqInsert e q) [] = pqBuildFrom pushed.reverse :=
  List.foldr_reverse.symm

/-- Settles O16: the pushes load the reversed list, which is a permutation of the items. -/
theorem bulkLoadEqualsPushesInAnyOrder : Obligations.BulkLoadEqualsPushesInAnyOrder := by
  intro items pushed hperm
  rw [foldl_pqInsert_eq_pqBuildFrom_reverse]
  exact pqBuildFrom_eq_of_perm (hperm.symm.trans pushed.reverse_perm.symm)

/-- Settles O22: one arena and root, chosen from the table before any state, serve every state that holds it. -/
theorem treeIsAFunctionOfTheTable : Obligations.TreeIsAFunctionOfTheTable := by
  intro s s' hft hne
  obtain ⟨node, root, t, -, hexec, -⟩ := execBuildTree_ok s.ft (tablePairs_ne_nil hne)
  exact ⟨_, _, hexec s rfl, hexec s' hft.symm, rfl, rfl, rfl, rfl⟩

end Sys2Proof.Machine

namespace Sys2Proof.Machine

/-! ## The tree under either child order (41_tree_build.md R113, R117) -/

/-- Settles O23: the loop's invariant makes each pass two pops of unique minima, so the loop is a chain of merges on the
collections, which the seeded queue lists; the last entry's payload is the root. -/
theorem buildTreeFollowsTheMerges : Obligations.BuildTreeFollowsTheMerges := by
  intro co s hne
  obtain ⟨node, root, -, -, hbuild, e, hroot, hmerges⟩ := buildTree_ok co s.ft (tablePairs_ne_nil hne)
  exact ⟨builtState node root s, e, hbuild s rfl, congrArg some hroot, hmerges⟩

/-- `build_codes` right after `build_tree` takes the codes of the tree just built (42_code_derivation.md R130). -/
theorem buildCodes_builtState (node : List Node) (root : NodeIdx) (s : State) :
    buildCodes (builtState node root s) = treeCodes node root :=
  rfl

/-- A table that holds every byte of an input that is not empty has a present entry. -/
theorem tablePairs_ne_nil_of_mapped {α : Type} {t : Table α} {x : List Byte} (hx : x ≠ [])
    (hmapped : ∀ b ∈ x, (tableGet t b).isSome = true) : tablePairs t ≠ [] := by
  obtain ⟨b, hb⟩ := List.exists_mem_of_ne_nil _ hx
  exact tablePairs_ne_nil (List.ne_nil_of_mem ((mem_symbols t b).2 (hmapped b hb)))

/-- Settles O45: for a given child order both builds leave the one arena that the table determines, and over that arena
unpacking undoes packing. -/
theorem roundTripUnderEitherChildOrder : Obligations.RoundTripUnderEitherChildOrder := by
  intro co s u x hx hmapped hft
  obtain ⟨node, root, t, hok, hbuild, -⟩ := buildTree_ok co s.ft (tablePairs_ne_nil_of_mapped hx hmapped)
  obtain ⟨ct, hcodes, hfor⟩ := treeCodes_ok hok
  obtain ⟨p, hpack, hunpack⟩ := payloadPack_unpack hok hfor (allMapped_of_codesFor hfor hmapped)
  exact ⟨builtState node root s, ct, root, builtState node root u, p, hbuild s rfl,
    (buildCodes_builtState node root s).trans hcodes, hpack, hbuild u hft, rfl, hunpack⟩

/-! ## FT_CLEAR, FT_WRITE, and BUILD_TREE on an empty table (41_tree_build.md R111, R112, R114) -/

/-- Settles O17: clearing the table and what is derived from it, then the response, are the whole meaning. -/
theorem ftClearClearsTableTreeAndCodes : Obligations.FtClearClearsTableTreeAndCodes :=
  fun _ => rfl

/-- Settles O18: the new table is the old one with the one entry written. -/
theorem ftWriteStoresOneCount : Obligations.FtWriteStoresOneCount :=
  fun sym count s => ⟨tableSet s.ft sym count, fun r => tableGet_set s.ft sym r count, rfl⟩

/-- BUILD_TREE on a table without a present entry raises `EmptyInput` in the state it found (41_tree_build.md R114). -/
theorem execBuildTree_empty {s : State} (h : tablePairs s.ft = []) : execBuildTree s = .next (raise .emptyInput s) := by
  simp only [execBuildTree, buildTree_empty Config.childOrder s h, stopWith]

/-- Settles O20: no symbol is no pair, and the error writes only the response and the record. -/
theorem buildTreeOnEmptyTable : Obligations.BuildTreeOnEmptyTable :=
  fun _ hempty => execBuildTree_empty (List.map_eq_nil_iff.1 hempty)

end Sys2Proof.Machine

namespace Sys2Proof.Machine

/-! ## BUILD_CODES (42_code_derivation.md R130 to R135) -/

/-- Where `build_codes` makes a table, BUILD_CODES stores it and answers `OK` (42_code_derivation.md R133). -/
theorem execBuildCodes_of_ok {s : State} {ct : Table Code} (h : buildCodes s = .ok ct) :
    execBuildCodes s = .next (respondOk (withCt ct s)) := by
  simp only [execBuildCodes, h]

theorem buildCodes_of_no_tree {s : State} (hv : s.treeValid = false) : buildCodes s = .ok (tableEmpty Code) := by
  simp only [buildCodes, hv, Bool.false_eq_true, if_false]

theorem buildCodes_of_root {s : State} {root : NodeIdx} (hv : s.treeValid = true) (hroot : s.root = some root) :
    buildCodes s = treeCodes s.node root := by
  simp only [buildCodes, hv, hroot, if_true]

theorem treeCodes_of_leaf {node : List Node} {root : NodeIdx} {sym : Symbol} {f : Prio} {y : SymSet}
    (h : nodeAt node root = some (.leaf sym f y)) :
    treeCodes node root = .ok (tableSet (tableEmpty Code) sym [false]) := by
  simp only [treeCodes, h]

/-- With a valid tree BUILD_CODES ends `OK` with the codes of a tree that the arena holds. -/
theorem execBuildCodes_codesFor {s : State} (hinv : s.Inv) (hv : s.treeValid = true) :
    ∃ root t ct, execBuildCodes s = .next (respondOk (withCt ct s)) ∧ CodesFor s.ft s.node root t ct := by
  obtain ⟨-, htree, -⟩ := hinv
  obtain ⟨root, hroot, -⟩ := treeOk_valid htree hv
  obtain ⟨ct, -, hexec, -, hcodes⟩ := execBuildCodes_ok htree
  obtain ⟨t, -, hfor⟩ := hcodes root hroot
  exact ⟨root, t, ct, hexec, hfor⟩

/-- Settles O29: the codes are those of the tree's leaves, which are the present symbols, and no path is longer than the
tree is deep. -/
theorem buildCodesCompletes : Obligations.BuildCodesCompletes := by
  intro s hinv hv
  obtain ⟨root, t, ct, hexec, hfor⟩ := execBuildCodes_codesFor hinv hv
  exact ⟨ct, hexec, hfor.present, hfor.bounds⟩

/-- Settles O30: two paths of one tree of which one begins the other are the same path. -/
theorem codesArePrefixFree : Obligations.CodesArePrefixFree := by
  intro s hinv hv
  obtain ⟨root, t, ct, hexec, hfor⟩ := execBuildCodes_codesFor hinv hv
  exact ⟨_, hexec, hfor.prefixFree⟩

/-- Settles O27: without a tree `build_codes` yields the empty table. -/
theorem buildCodesOnEmptyTree : Obligations.BuildCodesOnEmptyTree :=
  fun _ hv => execBuildCodes_of_ok (buildCodes_of_no_tree hv)

/-- Settles O28: the one write into the empty table is the leaf symbol's. -/
theorem singleLeafGetsCodeZero : Obligations.SingleLeafGetsCodeZero := by
  intro s root sym f y hv hroot hleaf
  refine ⟨tableSet (tableEmpty Code) sym [false], fun r => ?_, ?_⟩
  · rw [tableGet_set, tableGet_empty]
  · exact execBuildCodes_of_ok ((buildCodes_of_root hv hroot).trans (treeCodes_of_leaf hleaf))

/-! ## The walk against the codes (43_bit_decoder.md R140, R141, R144) -/

theorem HTree.cons_mem_paths_node {l r : HTree} {f : Prio} {s : Symbol} {b : Bit} {c : Code} :
    (s, b :: c) ∈ (HTree.node l r f).paths ↔ (s, c) ∈ (if b then r else l).paths := by
  cases b <;> simp [HTree.paths]

/-- A tree is complete: any bits either go through a leaf or end inside the tree, above some leaf. -/
theorem HTree.exists_path_along (t : HTree) (bits : List Bit) :
    ∃ s c, (s, c) ∈ t.paths ∧ (c <+: bits ∨ ∃ more, more ≠ [] ∧ c = bits ++ more) := by
  induction t generalizing bits with
  | leaf s f => exact ⟨s, [], List.mem_singleton.2 rfl, .inl List.nil_prefix⟩
  | node l r f ihl ihr =>
    cases bits with
    | nil =>
      obtain ⟨s, c, hmem, -⟩ := ihl []
      exact ⟨s, false :: c, cons_mem_paths_node.2 hmem, .inr ⟨_, List.cons_ne_nil _ _, rfl⟩⟩
    | cons b bs =>
      obtain ⟨s, c, hmem, halong⟩ : ∃ s c, (s, c) ∈ (if b then r else l).paths ∧
          (c <+: bs ∨ ∃ more, more ≠ [] ∧ c = bs ++ more) := by
        cases b
        · exact ihl bs
        · exact ihr bs
      refine ⟨s, b :: c, cons_mem_paths_node.2 hmem, ?_⟩
      rcases halong with hpre | ⟨more, hmore, rfl⟩
      · exact .inl (List.cons_prefix_cons.2 ⟨rfl, hpre⟩)
      · exact .inr ⟨more, hmore, rfl⟩

/-- The bits are a proper beginning of some code of the table. -/
def beginsCode (ct : Table Code) (bits : List Bit) : Prop :=
  ∃ sym c more, tableGet ct sym = some c ∧ c = bits ++ more ∧ more ≠ []

section

variable {ft : Table Count} {node : List Node} {root : NodeIdx} {t : HTree} {ct : Table Code}

/-- With two or more symbols any bits go on through a whole code or stop inside one. -/
theorem exists_code_along (hok : BuiltOk ft node root t) (hcodes : CodesFor ft node root t ct)
    (htwo : 2 ≤ (symbols ft).length) (bits : List Bit) :
    (∃ sym c rest, tableGet ct sym = some c ∧ bits = c ++ rest) ∨ beginsCode ct bits := by
  cases t with
  | leaf s f =>
    have hlen := builtOk_leaves_length hok
    simp only [HTree.leaves, List.length_singleton] at hlen
    omega
  | node l r f =>
    obtain ⟨sym, c, hmem, halong⟩ := (HTree.node l r f).exists_path_along bits
    have hc := (hcodes.path l r f rfl sym c).2 hmem
    rcases halong with ⟨rest, hbits⟩ | ⟨more, hmore, hbits⟩
    · exact .inl ⟨sym, c, rest, hc, hbits.symm⟩
    · exact .inr ⟨sym, c, more, hc, hbits, hmore⟩

/-- Any bits are the codes of some input and then a proper beginning of a code, by induction on their number: a code
has at least one bit. -/
theorem exists_codeBits_append (hok : BuiltOk ft node root t) (hcodes : CodesFor ft node root t ct)
    (htwo : 2 ≤ (symbols ft).length) (bits : List Bit) :
    ∃ e tail, bits = codeBits ct e ++ tail ∧ allMapped ct e ∧ beginsCode ct tail := by
  induction hn : bits.length using Nat.strong_induction_on generalizing bits with
  | _ n ih =>
    rcases exists_code_along hok hcodes htwo bits with ⟨sym, c, rest, hc, rfl⟩ | hbegins
    · have hpos := (hcodes.bounds sym c hc).1
      rw [List.length_append] at hn
      obtain ⟨e, tail, rfl, hmapped, hbegins⟩ := ih rest.length (by omega) rest rfl
      refine ⟨sym :: e, tail, ?_, List.forall_mem_cons.2 ⟨?_, hmapped⟩, hbegins⟩
      · simp only [codeBits, hc, Option.getD_some, List.append_assoc]
      · rw [hc, Option.isSome_some]
    · exact ⟨[], bits, rfl, List.forall_mem_nil _, hbegins⟩

/-- A walk over the codes of an input emits the input and goes on from the root (43_bit_decoder.md R141). -/
theorem walkBits_codeBits_append (hok : BuiltOk ft node root t) (hcodes : CodesFor ft node root t ct)
    (htwo : 2 ≤ (symbols ft).length) {e : List Byte} (he : allMapped ct e) (tail : List Bit) :
    walkBits node root root (codeBits ct e ++ tail) =
      (e ++ (walkBits node root root tail).1, (walkBits node root root tail).2) := by
  induction e with
  | nil => rfl
  | cons b bs ih =>
    obtain ⟨hb, hbs⟩ := List.forall_mem_cons.1 he
    obtain ⟨c, hc⟩ := Option.isSome_iff_exists.1 hb
    obtain ⟨f, y, hleaf⟩ := codesFor_followPath hok hcodes htwo hc
    have hne : c ≠ [] := List.ne_nil_of_length_pos (hcodes.bounds b c hc).1
    simp only [codeBits, hc, Option.getD_some, List.append_assoc]
    rw [walkBits_path hne hleaf, ih hbs]
    rfl

end

theorem followPath_cons_eq_some {node : List Node} {i : NodeIdx} {b : Bit} {bs : Code} {n : Node}
    (h : followPath node i (b :: bs) = some n) :
    ∃ l r f y, nodeAt node i = some (.internal l r f y) ∧ followPath node (if b then r else l) bs = some n := by
  simp only [followPath] at h
  split at h
  · next l r f y hn => exact ⟨l, r, f, y, hn, h⟩
  · cases h

/-- A path that goes on passes an internal node. -/
theorem followPath_of_append {node : List Node} {i : NodeIdx} {c more : Code} {n : Node} (hmore : more ≠ [])
    (h : followPath node i (c ++ more) = some n) : ∃ l r f y, followPath node i c = some (.internal l r f y) := by
  induction c generalizing i with
  | nil =>
    obtain ⟨b, bs, rfl⟩ := List.exists_cons_of_ne_nil hmore
    obtain ⟨l, r, f, y, hn, -⟩ := followPath_cons_eq_some h
    exact ⟨l, r, f, y, hn⟩
  | cons b c ih =>
    obtain ⟨l, r, f, y, hn, hrest⟩ := followPath_cons_eq_some h
    simpa only [followPath, hn] using ih hrest

/-- A path to an internal node starts at one. -/
theorem internal_of_followPath {node : List Node} {i l r : NodeIdx} {c : Code} {f : Prio} {y : SymSet}
    (h : followPath node i c = some (.internal l r f y)) : ∃ l r f y, nodeAt node i = some (.internal l r f y) := by
  cases c with
  | nil => exact ⟨l, r, f, y, h⟩
  | cons b bs =>
    obtain ⟨l', r', f', y', hn, -⟩ := followPath_cons_eq_some h
    exact ⟨l', r', f', y', hn⟩

/-- In the arena each bit leads to a smaller index (10_state.md R31). -/
theorem arenaOk_child_lt {node : List Node} (ha : arenaOk node) {i l r : NodeIdx} {f : Prio} {y : SymSet}
    (h : nodeAt node i = some (.internal l r f y)) (b : Bit) : (if b then r else l).toNat < i.toNat := by
  obtain ⟨hl, hr, -⟩ := ha.2 i.toNat l r f y h
  cases b
  · exact hl
  · exact hr

/-- A walk that ends inside the tree emits nothing and is truncated: the indices fall along the way, so the cursor
is not back at the root (43_bit_decoder.md R144). -/
theorem walkBits_truncated {node : List Node} (ha : arenaOk node) {root cur : NodeIdx} {bits : List Bit} {l r : NodeIdx}
    {f : Prio} {y : SymSet} (h : followPath node cur bits = some (.internal l r f y)) (hcur : cur.toNat ≤ root.toNat)
    (hoff : bits = [] → cur ≠ root) :
    walkBits node root cur bits = ([], some (.raise .truncatedStream)) := by
  induction bits generalizing cur with
  | nil => simp only [walkBits, hoff rfl, if_false]
  | cons b bs ih =>
    obtain ⟨l', r', f', y', hn, hrest⟩ := followPath_cons_eq_some h
    have hlt := arenaOk_child_lt ha hn b
    have hne : (if b then r' else l') ≠ root := mt (congrArg BitVec.toNat) (by omega)
    obtain ⟨_, _, _, _, hchild⟩ := internal_of_followPath hrest
    simp only [walkBits, hn, walkMove, hchild]
    exact ih hrest (by omega) fun _ => hne

/-- A walk from the root over a proper beginning of a code emits nothing, and ends well only over no bits at all. -/
theorem walkBits_of_beginsCode {ft : Table Count} {node : List Node} {root : NodeIdx} {t : HTree} {ct : Table Code}
    (hok : BuiltOk ft node root t) (hcodes : CodesFor ft node root t ct) (htwo : 2 ≤ (symbols ft).length)
    {bits : List Bit} (h : beginsCode ct bits) :
    walkBits node root root bits = ([], if bits = [] then none else some (.raise .truncatedStream)) := by
  obtain ⟨sym, c, more, hc, rfl, hmore⟩ := h
  by_cases hnil : bits = []
  · simp only [hnil, walkBits, if_true]
  · obtain ⟨f, y, hleaf⟩ := codesFor_followPath hok hcodes htwo hc
    obtain ⟨l, r, f, y, hinner⟩ := followPath_of_append hmore hleaf
    rw [walkBits_truncated hok.arena hinner le_rfl fun h => absurd h hnil, if_neg hnil]

/-- Settles O42: the bits are codes and then a proper beginning of one, and the walk follows that division. -/
theorem walkSpellsTheBits : Obligations.WalkSpellsTheBits := by
  intro ft node root ct bits hbuilt htwo hct
  obtain ⟨-, t, hok⟩ := builtFrom_spec hbuilt
  obtain ⟨ct', hct', hcodes⟩ := treeCodes_ok hok
  obtain rfl : ct = ct' := Except.ok.inj (hct.symm.trans hct')
  obtain ⟨e, tail, rfl, hmapped, hbegins⟩ := exists_codeBits_append hok hcodes htwo bits
  have hwalk := walkBits_codeBits_append hok hcodes htwo hmapped tail
  rw [walkBits_of_beginsCode hok hcodes htwo hbegins, List.append_nil] at hwalk
  rw [hwalk]
  exact ⟨e, tail, rfl, rfl, hmapped, fun h => if_pos h, fun h => ⟨if_neg h, hbegins⟩⟩

end Sys2Proof.Machine

namespace Sys2Proof.Machine

/-! ## DECODE by what its header, table and payload came to (44_container_format.md R165) -/

theorem execDecode_of_no_header {s : State} {r : Raise} (hparse : hdrParse s.inp = .error r) :
    execDecode s = .next (raise .invalidHeaderToken (consumeIn (decodeStart s))) := by
  obtain rfl := hdrParseFrom_error hparse
  simp only [execDecode, hparse]

theorem execDecode_of_empty_table {s : State} {ft : Table Count} {rest : List Byte}
    (hparse : hdrParse s.inp = .ok (ft, rest)) (hempty : tablePairs ft = []) :
    execDecode s = .next (raise .emptyInput (withFt ft (consumeIn (decodeStart s)))) := by
  simp only [execDecode, hparse, buildTree_empty _ (withFt ft _) hempty, stopWith]

/-- A table with a symbol has its arena (41_tree_build.md R119). -/
theorem exists_builtFrom {ft : Table Count} (hne : symbols ft ≠ []) :
    ∃ node root t, BuiltOk ft node root t ∧ builtFrom ft = some (node, root) := by
  obtain ⟨node, root, t, hok, hfrom, -⟩ := execBuildTree_built (s := withFt ft State.reset) (tablePairs_ne_nil hne)
  exact ⟨node, root, t, hok, hfrom⟩

/-- A build in any state leaves the arena that its table fixes (10_state.md R41, 41_tree_build.md R120). -/
theorem buildTree_of_builtFrom {s : State} {node : List Node} {root : NodeIdx}
    (hfrom : builtFrom s.ft = some (node, root)) :
    buildTree Config.childOrder s = .ok (builtState node root s) := by
  obtain ⟨hne, -⟩ := builtFrom_spec hfrom
  obtain ⟨node', root', -, -, hbuild, -⟩ := buildTree_ok Config.childOrder s.ft hne
  have hbuilt := hbuild s rfl
  cases (builtFrom_eq rfl hbuilt).symm.trans hfrom
  exact hbuilt

theorem execDecode_of_unpack_raise {s : State} {ft : Table Count} {rest e : List Byte} {node : List Node}
    {root : NodeIdx} {r : Raise} (hparse : hdrParse s.inp = .ok (ft, rest)) (hfrom : builtFrom ft = some (node, root))
    (hunpack : payloadUnpack node root rest = (e, some (.raise r))) :
    execDecode s = .next (raise r (deliverPrefix e (decodeBuilt ft node root s))) := by
  simp only [execDecode, hparse, buildTree_of_builtFrom (s := withFt ft _) hfrom, decodePayload, builtState_root,
    builtState_node, hunpack, stopWith, decodeBuilt]

/-- A padding count above 7 is malformed before any bit is read (43_bit_decoder.md R143). -/
theorem walkDecode_of_pad_gt {pad : Byte} (h : pad > 7) (node : List Node) (root : NodeIdx) (p : List Byte) :
    walkDecode node root p pad = ([], some (.raise (.malformedPadding pad))) :=
  if_pos h

/-- Settles O39: one equation of DECODE per outcome, chosen by the header, the table, the padding byte and the walk. -/
theorem decodeOutcomesInOrder : Obligations.DecodeOutcomesInOrder := by
  intro s
  cases hparse : hdrParse s.inp with
  | error r => exact execDecode_of_no_header hparse
  | ok q =>
    obtain ⟨ft, rest⟩ := q
    by_cases hempty : symbols ft = []
    · have hpairs : tablePairs ft = [] := List.map_eq_nil_iff.1 hempty
      obtain rfl := (tablePairs_eq_nil ft).1 hpairs
      exact (if_pos hempty).mpr (execDecode_of_empty_table hparse hpairs)
    · obtain ⟨node, root, t, hok, hfrom⟩ := exists_builtFrom hempty
      refine (if_neg hempty).mpr ⟨node, root, hfrom, ?_⟩
      obtain rfl | ⟨p, pad, rfl⟩ := rest.eq_nil_or_concat'
      · exact execDecode_of_unpack_raise hparse hfrom rfl
      · have hunpack := payloadUnpack_append node root p pad
        simp only [List.getLast?_concat, List.dropLast_concat]
        split_ifs with hpad
        · rw [walkDecode_of_pad_gt hpad] at hunpack
          exact execDecode_of_unpack_raise hparse hfrom hunpack
        · rw [walkDecode_of_pad_le (Nat.not_lt.1 hpad)] at hunpack
          have hstop := walkBits_stop hok.isTree hok.isTree (validBits p pad)
          rcases hwalk : walkBits node root root (validBits p pad) with ⟨e, _ | stop⟩ <;> rw [hwalk] at hunpack hstop
          · exact execDecode_of_unpack_ok hparse hfrom hunpack
          · obtain rfl : stop = .raise .truncatedStream := by simpa using hstop
            obtain ⟨k, draws, hprefix⟩ := deliverPrefix_spec e (decodeBuilt ft node root s)
            refine ⟨k, draws, ?_⟩
            have hexec := execDecode_of_unpack_raise hparse hfrom hunpack
            rw [hprefix] at hexec
            exact hexec

/-! ## The one-symbol file (43_bit_decoder.md R145) -/

/-- The last `pad` bits of a payload are not valid (43_bit_decoder.md R142). -/
theorem validBits_length (p : List Byte) (pad : Byte) : (validBits p pad).length = 8 * p.length - pad.toNat := by
  cases p with
  | nil => simp [validBits]
  | cons b bs =>
    rw [validBits, List.length_take, streamBits_length]
    omega

/-- The arena of a table with one symbol is that symbol's leaf alone (41_tree_build.md R118). -/
theorem root_of_single_symbol {ft : Table Count} {node : List Node} {root : NodeIdx} {t : HTree} {sym : Symbol}
    (hok : BuiltOk ft node root t) (hone : symbols ft = [sym]) :
    ∃ f y, nodeAt node root = some (.leaf sym f y) := by
  obtain ⟨⟨sym', c⟩, hpairs, rfl⟩ := List.map_eq_singleton_iff.1 hone
  obtain ⟨tail, hnode, -⟩ := hok.leaves
  have hcount := hok.count
  have hlast := hok.rootLast
  rw [hpairs, List.length_singleton] at hcount
  have hroot : root.toNat = 0 := by omega
  exact ⟨_, _, by rw [nodeAt, hroot, hnode, hpairs]; rfl⟩

/-- Settles O41: the root is the symbol's leaf, where the walk emits the symbol at every valid bit. -/
theorem singleSymbolFileDecodes : Obligations.SingleSymbolFileDecodes := by
  intro s ft sym p pad hone hparse hpad
  obtain ⟨node, root, t, hok, hfrom⟩ := exists_builtFrom (hone ▸ List.cons_ne_nil sym [])
  obtain ⟨f, y, hleaf⟩ := root_of_single_symbol hok hone
  have hunpack : payloadUnpack node root (p ++ [pad]) = (List.replicate (8 * p.length - pad.toNat) sym, none) := by
    rw [payloadUnpack_append, walkDecode_of_pad_le hpad, walkBits_single hleaf, validBits_length]
  exact ⟨_, execDecode_of_unpack_ok hparse hfrom hunpack, rspStatus_respond 0 0 0 _, rfl, rfl⟩

end Sys2Proof.Machine

namespace Sys2Proof.Machine

/-! ## The header written and read (44_container_format.md R153 to R168) -/

/-- The header of the empty table ends at its first newline: the second is left (44_container_format.md R168). -/
theorem hdrParse_hdrSerialize_empty (z : List Byte) :
    hdrParse (hdrSerialize (tableEmpty Count) ++ z) = .ok (tableEmpty Count, 0x0A :: z) := by
  rw [hdrSerialize, (tablePairs_eq_nil _).2 rfl]
  exact hdrParseFrom_blank _ _

/-- Settles O35: the one line of pairs folds back into the table; without a pair the first newline is a blank line. -/
theorem headerRoundTrip : Obligations.HeaderRoundTrip := by
  refine fun t z => ⟨fun hne => hdrParse_hdrSerialize (tablePairs_ne_nil hne) z, fun hempty => ?_⟩
  obtain rfl := (tablePairs_eq_nil t).1 (List.map_eq_nil_iff.1 hempty)
  exact hdrParse_hdrSerialize_empty z

/-- Settles O34: the bytes before the two newlines are those of the pairs. -/
theorem headerIsAscii : Obligations.HeaderIsAscii :=
  fun ft => ⟨hdrPairs (tablePairs ft), rfl, hdrPairs_bytes (tablePairs ft)⟩

/-- The parser folds written lines, one after the other, into its table and ends at the blank line behind them
(44_container_format.md R155, R156). -/
theorem hdrParseFrom_hdrLines {lines : List (List (Symbol × Count))} (hne : ∀ l ∈ lines, l ≠ []) (t : Table Count)
    (z : List Byte) :
    hdrParseFrom t [] ((lines.flatMap fun l => hdrPairs l ++ [0x0A]) ++ 0x0A :: z) =
      .ok (lines.flatten.foldl (fun u p => tableSet u p.1 p.2) t, z) := by
  induction lines generalizing t with
  | nil => exact hdrParseFrom_blank t z
  | cons l ls ih =>
    obtain ⟨hl, hls⟩ := List.forall_mem_cons.1 hne
    simp only [List.flatMap_cons, List.append_assoc, List.cons_append, List.nil_append]
    rw [List.flatten_cons, List.foldl_append, ← ih hls]
    exact hdrParseFrom_hdrPairs t hl _

/-- Settles O36: the lines fold their pairs into the empty table, where the last pair of a symbol stays. -/
theorem headerPairsMayRepeatOverLines : Obligations.HeaderPairsMayRepeatOverLines := by
  refine fun lines z hne => ⟨_, hdrParseFrom_hdrLines hne (tableEmpty Count) z, fun sym => ?_⟩
  rw [foldl_tableSet_last, tableGet_empty, Option.or_none]

/-! ## A header that does not end (44_container_format.md R156) -/

/-- Where the rest of the input has no blank line, neither at once nor later, the parser fails: each newline it meets ends
a line that is not empty, and the next line does not begin with another. -/
theorem hdrParseFrom_of_no_blank {inp : List Byte} (t : Table Count) {line : List Byte}
    (hstart : line = [] → inp.head? ≠ some 0x0A) (hblank : ¬ [0x0A, 0x0A] <:+: inp) :
    ∃ r, hdrParseFrom t line inp = .error r := by
  induction inp generalizing t line with
  | nil => exact ⟨_, rfl⟩
  | cons c rest ih =>
    have hrest : ¬ [0x0A, 0x0A] <:+: rest := fun h => hblank (List.infix_cons h)
    by_cases hc : c = 0x0A#8
    · subst hc
      have hline : line ≠ [] := fun h => hstart h rfl
      have hnext : rest.head? ≠ some 0x0A := by
        intro h
        obtain ⟨more, rfl⟩ := List.head?_eq_some_iff.1 h
        exact hblank (List.prefix_append [0x0A, 0x0A] more).isInfix
      simp only [hdrParseFrom, if_true, if_neg hline]
      cases fillTable t (tokens line) with
      | error r => exact ⟨r, rfl⟩
      | ok t' => exact ih t' (fun _ => hnext) hrest
    · simp only [hdrParseFrom, if_neg hc]
      exact ih t (fun h => absurd h (List.append_ne_nil_of_right_ne_nil line (List.cons_ne_nil c []))) hrest

/-- Settles O37: the parser fails, and DECODE then leaves the block cleared with `OUT` as it was. -/
theorem headerWithoutBlankLineIsMalformed : Obligations.HeaderWithoutBlankLineIsMalformed := by
  intro s hhead hblank
  obtain ⟨r, hparse⟩ := hdrParseFrom_of_no_blank (tableEmpty Count) (line := []) (fun _ => hhead) hblank
  exact ⟨_, execDecode_of_no_header hparse, rspStatus_word _ _ _ _, rfl, rfl, rfl, rfl⟩

/-! ## DECODE reads `IN` alone (44_container_format.md R165) -/

/-- Two states with the same count of draws have the same first bytes of an emission delivered (20_memory.md R54). -/
theorem deliverPrefix_same {s s' : State} (h : s.draws = s'.draws) (e : List Byte) :
    ∃ p d, deliverPrefix e s = { s with out := s.out ++ p, draws := d } ∧
      deliverPrefix e s' = { s' with out := s'.out ++ p, draws := d } := by
  cases e with
  | nil => exact ⟨[], s.draws, by simp, by simp [h]⟩
  | cons b bs => exact ⟨_, _, rfl, by rw [h]; rfl⟩

/-- Settles O43: the header and what follows it choose the outcome, which in each case is built on a cleared block. -/
theorem decodeForgetsTheOldState : Obligations.DecodeForgetsTheOldState := by
  intro s s' hinp hdraws
  rcases execDecode_cases s with ⟨r, hparse, -, hexec⟩ | ⟨ft, rest, hparse, hempty, hexec⟩ |
    ⟨ft, rest, node, root, -, hparse, -, hfrom, ⟨hend, hexec⟩ | ⟨r, hend, -, hexec⟩⟩
  · have hexec' := execDecode_of_no_header (hinp ▸ hparse)
    exact ⟨_, _, [], hexec, hexec', by simp⟩
  · have hexec' := execDecode_of_empty_table (hinp ▸ hparse) hempty
    exact ⟨_, _, [], hexec, hexec', by simp⟩
  · have hexec' := execDecode_of_unpack_ok (hinp ▸ hparse) hfrom (Prod.ext rfl hend)
    exact ⟨_, _, _, hexec, hexec', rfl, rfl, rfl, rfl, rfl, rfl, rfl, rfl, rfl, rfl⟩
  · have hexec' := execDecode_of_unpack_raise (hinp ▸ hparse) hfrom (Prod.ext rfl hend)
    obtain ⟨p, d, hprefix, hprefix'⟩ := deliverPrefix_same
      (s := decodeBuilt ft node root s) (s' := decodeBuilt ft node root s') hdraws (payloadUnpack node root rest).1
    rw [hprefix] at hexec
    rw [hprefix'] at hexec'
    exact ⟨_, _, p, hexec, hexec', rfl, rfl, rfl, rfl, rfl, rfl, rfl, rfl, rfl, rfl⟩

end Sys2Proof.Machine

namespace Sys2Proof.Machine

/-! ## How errors are reported (60_exceptions.md) -/

/-- Settles O7: a word that selects no row does not decode, and its issue then raises `ILLEGAL_COMMAND` alone. -/
theorem illegalDescriptorOnlyReports : Obligations.IllegalDescriptorOnlyReports := fun s d hnone =>
  ⟨_, issue_of_decode_error ((decodeSelectsTableRow d).2.2 hnone) s⟩

/-- Settles O40: the walk refuses the padding byte before it emits anything, on the tree the header's table gave. -/
theorem paddingAboveSevenIsMalformed : Obligations.PaddingAboveSevenIsMalformed := by
  intro s ft p pad hparse hne hpad
  obtain ⟨node, root, -, -, hfrom⟩ := exists_builtFrom hne
  have hunpack : payloadUnpack node root (p ++ [pad]) = ([], some (.raise (.malformedPadding pad))) :=
    (payloadUnpack_append node root p pad).trans (walkDecode_of_pad_gt hpad node root p)
  exact ⟨_, execDecode_of_unpack_raise hparse hfrom hunpack, rspStatus_word _ _ _ _, rspTie_word _ _ _ _, rfl, rfl, rfl⟩

/-- Settles O50: each way ENCODE or DECODE ends has consumed `IN`, and delivering a prefix does not touch it. -/
theorem inputIsEmptyAfterEncodeAndDecode : Obligations.InputIsEmptyAfterEncodeAndDecode := by
  intro i s t hi h
  cases commandEnds_of_exec h with
  | encode | decodeNoHeader | decodeEmptyTable | decode => rfl
  | encodeUnmapped | decodeBadPayload => exact deliverPrefix_inp _ _
  | _ => simp at hi

/-- A command ends by a response or by an error, from a state whose record is still the one it began with. -/
theorem commandEnds_reports {i : Instr} {s t : State} (h : CommandEnds i s t) :
    ∃ u, ((∃ tie val prio, t = respond tie val prio u) ∨ ∃ r, t = raise r u) ∧ u.faultLog = s.faultLog := by
  cases h with
  | pqPushFull | pqPopEmpty | buildTreeEmpty | decodeNoHeader | decodeEmptyTable => exact ⟨_, .inr ⟨_, rfl⟩, rfl⟩
  | encodeUnmapped | decodeBadPayload => exact ⟨_, .inr ⟨_, rfl⟩, deliverPrefix_faultLog _ _⟩
  | _ => exact ⟨_, .inl ⟨_, _, _, rfl⟩, rfl⟩

/-- Settles O53: a response has the status `OK` and keeps the record, an error has another and adds it to the record. -/
theorem faultsAreReportedAndRecorded : Obligations.FaultsAreReportedAndRecorded := by
  intro i s t h
  obtain ⟨u, ⟨tie, val, prio, rfl⟩ | ⟨r, rfl⟩, hlog⟩ := commandEnds_reports (commandEnds_of_exec h)
  · exact ⟨fun _ => hlog, fun hne => absurd (rspStatus_respond tie val prio u) hne⟩
  · refine ⟨fun hok => absurd hok (rspStatus_raise_ne_ok r u), fun _ => ?_⟩
    rw [raise_rsp, raise_faultLog, rspStatus_word, hlog]
    exact ⟨rspVal_word _ _ _ _, rspPrio_word _ _ _ _, rfl⟩

end Sys2Proof.Machine

namespace Sys2Proof.Machine

/-! ## What writes the tables and empties the queue (70_reset_and_hazards.md R219, R220) -/

/-- The arena, its count, the root and the valid bit. -/
def treeFields (s : State) : List Node × Nat × Option NodeIdx × Bool := (s.node, s.nodeCount, s.root, s.treeValid)

@[simp] theorem treeFields_deliverPrefix (e : List Byte) (s : State) : treeFields (deliverPrefix e s) = treeFields s := by
  obtain ⟨k, d, h⟩ := deliverPrefix_spec e s
  rw [h]
  rfl

/-- The commands that write `FT` may change all three. Any other keeps `FT`; unless it is BUILD_TREE it keeps the tree, and
then unless it is BUILD_CODES it keeps `CT`. -/
theorem commandEnds_writers {i : Instr} {s t : State} (h : CommandEnds i s t) :
    (i = .ftClear ∨ (∃ sym c, i = .ftWrite sym c) ∨ i = .decode) ∨
      t.ft = s.ft ∧ (i = .buildTree ∨ treeFields t = treeFields s ∧ (i = .buildCodes ∨ t.ct = s.ct)) := by
  cases h with
  | ftClear => exact .inl (.inl rfl)
  | ftWrite => exact .inl (.inr (.inl ⟨_, _, rfl⟩))
  | decodeNoHeader | decodeEmptyTable | decode | decodeBadPayload => exact .inl (.inr (.inr rfl))
  | buildTree => exact .inr ⟨rfl, .inl rfl⟩
  | buildCodes => exact .inr ⟨rfl, .inr ⟨rfl, .inl rfl⟩⟩
  | encodeUnmapped =>
    exact .inr ⟨deliverPrefix_ft _ _, .inr ⟨treeFields_deliverPrefix _ _, .inr (deliverPrefix_ct _ _)⟩⟩
  | _ => exact .inr ⟨rfl, .inr ⟨rfl, .inr rfl⟩⟩

theorem commandEnds_loader_clears {i : Instr} {s t : State} (h : CommandEnds i s t)
    (hi : i = .ftClear ∨ ∃ sym c, i = .ftWrite sym c) : t.treeValid = false ∧ t.ct = tableEmpty Code := by
  cases h with
  | ftClear | ftWrite => exact ⟨rfl, rfl⟩
  | _ => simp at hi

/-- BUILD_TREE faults only on an empty table; where it ends `OK` it has emptied the queue and cleared `CT`. -/
theorem commandEnds_buildTree {s t : State} (h : CommandEnds .buildTree s t) (hok : rspStatus t.rsp = statusOk) :
    t.pq = [] ∧ t.ct = tableEmpty Code := by
  cases h with
  | buildTree => exact ⟨rfl, rfl⟩
  | buildTreeEmpty => exact absurd hok (rspStatus_raise_ne_ok _ _)

/-- However DECODE ends, the queue and `CT` are empty, and a tree that is valid was built from the table the header gave. -/
theorem commandEnds_decode {s t : State} (h : CommandEnds .decode s t) :
    t.pq = [] ∧ t.ct = tableEmpty Code ∧
      (t.treeValid = true → ∃ root, t.root = some root ∧ builtFrom t.ft = some (t.node, root)) := by
  cases h with
  | decodeNoHeader | decodeEmptyTable => exact ⟨rfl, rfl, fun hv => absurd hv Bool.false_ne_true⟩
  | decode _ _ _ _ root _ _ _ hfrom => exact ⟨rfl, rfl, fun _ => ⟨root, rfl, hfrom⟩⟩
  | decodeBadPayload _ _ _ node root _ _ _ _ hfrom =>
    obtain ⟨k, d, hprefix⟩ := deliverPrefix_spec (payloadUnpack node root _).1 (decodeBuilt _ node root s)
    rw [hprefix]
    exact ⟨rfl, rfl, fun _ => ⟨root, rfl, hfrom⟩⟩

theorem commandEnds_buildCodes {s t : State} (h : CommandEnds .buildCodes s t) : buildCodes s = .ok t.ct := by
  cases h with
  | buildCodes _ _ hcodes => exact hcodes

/-- Settles O49: the writers by `commandEnds_writers`, and what each of them leaves by the ways it can end. -/
theorem onlyTheirCommandsWriteTheTables : Obligations.OnlyTheirCommandsWriteTheTables := by
  intro i s t h
  have hends := commandEnds_of_exec h
  refine ⟨fun hft => ?_, fun htree => ?_, fun hct => ?_, commandEnds_loader_clears hends, ?_, ?_, ?_⟩
  · rcases commandEnds_writers hends with hi | ⟨heq, -⟩
    · exact hi
    · exact absurd heq hft
  · rcases commandEnds_writers hends with hi | ⟨-, rfl | ⟨heq, -⟩⟩
    · exact hi.imp_right (Or.imp_right .inr)
    · exact .inr (.inr (.inl rfl))
    · exact absurd heq htree
  · rcases commandEnds_writers hends with hi | ⟨-, rfl | ⟨-, rfl | heq⟩⟩
    · exact hi.imp_right (Or.imp_right fun hdecode => .inr (.inr hdecode))
    · exact .inr (.inr (.inl rfl))
    · exact .inr (.inr (.inr (.inl rfl)))
    · exact absurd heq hct
  · rintro rfl hok
    exact (commandEnds_buildTree hends hok).2
  · rintro rfl
    exact (commandEnds_decode hends).2
  · rintro rfl
    exact commandEnds_buildCodes hends

/-- Settles O54: the builder takes the last entry off the queue, and DECODE clears the queue before it parses. -/
theorem buildersEmptyTheQueue : Obligations.BuildersEmptyTheQueue := fun _ _ =>
  ⟨fun h hok => (commandEnds_buildTree (commandEnds_of_exec h) hok).1,
    fun h => (commandEnds_decode (commandEnds_of_exec h)).1⟩

end Sys2Proof.Machine
